-- ==== Sys2Proof/Word.lean ====
section
/-! DEFINITION. The widths of the machine's values (00_scope.md R4, 10_state.md R21 to R29). -/

namespace Sys2Proof

/-- A general register, a memory byte or a timer value: 8 bits. -/
abbrev Byte := BitVec 8

/-- An instruction word: 16 bits (30_encoding.md R70). -/
abbrev Word := BitVec 16

/-- The value of pc, I or a stack entry: 16 bits. -/
abbrev Addr := BitVec 16

/-- A register index x or y: a 4-bit field, in range by construction (10_state.md R21). -/
abbrev RegIdx := BitVec 4

/-- A key index 0x0 to 0xF (10_state.md R31). -/
abbrev KeyIdx := BitVec 4

/-- The 12-bit address field nnn (30_encoding.md R71). -/
abbrev Addr12 := BitVec 12

end Sys2Proof
end

