-- ==== Sys2Proof/Syntax.lean ====
section
/-! DEFINITION. The instructions: one constructor for each row of spec/opcode_table.json, its
arguments the fields of 30_encoding.md R71 that the row reads. -/

namespace Sys2Proof

/-- The 34 instructions of 30_encoding.md R76, in the table's order. -/
inductive Instr where
  /-- 00E0 CLS (43_display.md R171) -/
  | cls
  /-- 00EE RET (40_control.md R100) -/
  | ret
  /-- 1NNN JP nnn (40_control.md R101) -/
  | jp (nnn : Addr12)
  /-- 2NNN CALL nnn (40_control.md R102) -/
  | call (nnn : Addr12)
  /-- 3XNN SE Vx, nn (40_control.md R104) -/
  | seImm (x : RegIdx) (nn : Byte)
  /-- 4XNN SNE Vx, nn (40_control.md R105) -/
  | sneImm (x : RegIdx) (nn : Byte)
  /-- 5XY0 SE Vx, Vy (40_control.md R106) -/
  | seReg (x y : RegIdx)
  /-- 6XNN LD Vx, nn (41_alu.md R120) -/
  | ldImm (x : RegIdx) (nn : Byte)
  /-- 7XNN ADD Vx, nn (41_alu.md R121) -/
  | addImm (x : RegIdx) (nn : Byte)
  /-- 8XY0 LD Vx, Vy (41_alu.md R122) -/
  | ldReg (x y : RegIdx)
  /-- 8XY1 OR Vx, Vy (41_alu.md R123) -/
  | orReg (x y : RegIdx)
  /-- 8XY2 AND Vx, Vy (41_alu.md R124) -/
  | andReg (x y : RegIdx)
  /-- 8XY3 XOR Vx, Vy (41_alu.md R125) -/
  | xorReg (x y : RegIdx)
  /-- 8XY4 ADD Vx, Vy (41_alu.md R126) -/
  | addReg (x y : RegIdx)
  /-- 8XY5 SUB Vx, Vy (41_alu.md R127) -/
  | subReg (x y : RegIdx)
  /-- 8XY6 SHR Vx, Vy (41_alu.md R128) -/
  | shr (x y : RegIdx)
  /-- 8XY7 SUBN Vx, Vy (41_alu.md R129) -/
  | subnReg (x y : RegIdx)
  /-- 8XYE SHL Vx, Vy (41_alu.md R130) -/
  | shl (x y : RegIdx)
  /-- 9XY0 SNE Vx, Vy (40_control.md R107) -/
  | sneReg (x y : RegIdx)
  /-- ANNN LD I, nnn (42_index_memory.md R150) -/
  | ldI (nnn : Addr12)
  /-- BNNN JP V0, nnn (40_control.md R103) -/
  | jpV0 (nnn : Addr12)
  /-- CXNN RND Vx, nn (41_alu.md R137) -/
  | rnd (x : RegIdx) (nn : Byte)
  /-- DXYN DRW Vx, Vy, n (43_display.md R172) -/
  | drw (x y : RegIdx) (n : BitVec 4)
  /-- EX9E SKP Vx (44_keys_timers.md R190) -/
  | skp (x : RegIdx)
  /-- EXA1 SKNP Vx (44_keys_timers.md R191) -/
  | sknp (x : RegIdx)
  /-- FX07 LD Vx, DT (44_keys_timers.md R193) -/
  | ldVxDt (x : RegIdx)
  /-- FX0A LD Vx, K (44_keys_timers.md R196) -/
  | ldVxK (x : RegIdx)
  /-- FX15 LD DT, Vx (44_keys_timers.md R194) -/
  | ldDtVx (x : RegIdx)
  /-- FX18 LD ST, Vx (44_keys_timers.md R195) -/
  | ldStVx (x : RegIdx)
  /-- FX1E ADD I, Vx (42_index_memory.md R151) -/
  | addI (x : RegIdx)
  /-- FX29 LD F, Vx (42_index_memory.md R152) -/
  | ldF (x : RegIdx)
  /-- FX33 LD B, Vx (42_index_memory.md R153) -/
  | ldB (x : RegIdx)
  /-- FX55 LD [I], Vx (42_index_memory.md R154) -/
  | storeRegs (x : RegIdx)
  /-- FX65 LD Vx, [I] (42_index_memory.md R155) -/
  | loadRegs (x : RegIdx)
  deriving DecidableEq, Repr

end Sys2Proof
end

