-- ==== Sys2Proof/Config.lean ====
section
/-! DEFINITION. What is fixed when the core is constructed (00_scope.md R4, R5), and the free values
of the two draws (00_scope.md R10). -/

namespace Sys2Proof

/-- SHIFT_SRC: which register SHR and SHL shift (00_scope.md R4, D7). -/
inductive ShiftSrc where
  | vx
  | vy
  deriving DecidableEq, Repr

/-- JUMP_OFFSET: which register BNNN adds (00_scope.md R4, D9). -/
inductive JumpOffset where
  | v0
  | vx
  deriving DecidableEq, Repr

/-- UNKNOWN_POLICY: what an unknown word does (30_encoding.md R78, D5). -/
inductive UnknownPolicy where
  | fatal
  | noOp
  deriving DecidableEq, Repr

/-- OOB_POLICY: what an address of 4096 or more does (20_memory.md R53, D6). -/
inductive OobPolicy where
  | fatal
  | wrap
  deriving DecidableEq, Repr

/-- FONT: 80 bytes, 5 for each hex digit (20_memory.md R55). -/
abbrev Font := Vector Byte 80

/-- The configuration record of 00_scope.md R5. IPF and TICK_RATE belong to the host and no rule
reads them, so they are not here. -/
structure Config where
  /-- STACK_DEPTH, an integer in 12..16 (`Config.wf` in WellFormed.lean says so). -/
  stackDepth : Nat
  font : Font
  shiftSrc : ShiftSrc
  fx1eSetsVf : Bool
  jumpOffset : JumpOffset
  unknownPolicy : UnknownPolicy
  oobPolicy : OobPolicy
  deriving DecidableEq, Repr

/-- The glyphs of digits 0 to 7 (20_memory.md R55). -/
def Font.glyphsLow : List Byte :=
  [0xF0, 0x90, 0x90, 0x90, 0xF0] ++ [0x20, 0x60, 0x20, 0x20, 0x70] ++
  [0xF0, 0x10, 0xF0, 0x80, 0xF0] ++ [0xF0, 0x10, 0xF0, 0x10, 0xF0] ++
  [0x90, 0x90, 0xF0, 0x10, 0x10] ++ [0xF0, 0x80, 0xF0, 0x10, 0xF0] ++
  [0xF0, 0x80, 0xF0, 0x90, 0xF0] ++ [0xF0, 0x10, 0x20, 0x40, 0x40]

/-- The glyphs of digits 8 to F (20_memory.md R55). -/
def Font.glyphsHigh : List Byte :=
  [0xF0, 0x90, 0xF0, 0x90, 0xF0] ++ [0xF0, 0x90, 0xF0, 0x10, 0xF0] ++
  [0xF0, 0x90, 0xF0, 0x90, 0x90] ++ [0xE0, 0x90, 0xE0, 0x90, 0xE0] ++
  [0xF0, 0x80, 0x80, 0x80, 0xF0] ++ [0xE0, 0x90, 0x90, 0x90, 0xE0] ++
  [0xF0, 0x80, 0xF0, 0x80, 0xF0] ++ [0xF0, 0x80, 0xF0, 0x80, 0x80]

/-- The default of FONT, the table of 20_memory.md R55 (which marks it as general knowledge; log 13). -/
def Font.standard : Font := ⟨(Font.glyphsLow ++ Font.glyphsHigh).toArray, rfl⟩

/-- The defaults of 00_scope.md R4 (log 2: State.reset takes them). -/
def Config.default : Config where
  stackDepth := 16
  font := Font.standard
  shiftSrc := .vx
  fx1eSetsVf := false
  jumpOffset := .v0
  unknownPolicy := .fatal
  oobPolicy := .fatal

/-- FREE VALUE (log 3): the byte that draw number n of RandomByte() gives (00_scope.md R10, 41_alu.md
R137: "any value", no sequence, seed or distribution). -/
opaque Config.randomByte : Nat → Byte

/-- FREE VALUE (log 4): the number by which draw number n of PickPressedKey() picks among the pressed
keys (00_scope.md R10, 44_keys_timers.md R196). -/
opaque Config.pressedKeyChoice : Nat → Nat

end Sys2Proof
end

