-- ==== Sys2Proof/Machine/State.lean ====
section
/-! DEFINITION. The machine state as plain data (10_state.md R20 to R38). -/

namespace Sys2Proof.Machine

/-- The memory of 20_memory.md R50, as the cells that differ from the reset image, in rising order of
address (`Memory.wf` in Machine/Ops.lean; log 9). -/
abbrev Memory := List Host.Cell

/-- FB[y][x], y in 0..31 and x in 0..63 (10_state.md R30). -/
abbrev Framebuffer := Vector (Vector Bool 64) 32

/-- The five error causes of 60_exceptions.md R210. -/
inductive Cause where
  | stackOverflow
  | stackUnderflow
  | unknownOpcode
  | memoryOutOfBounds
  | romTooLarge
  deriving DecidableEq, Repr

/-- The fault record of 10_state.md R33; its `code` is a function of `cause` (`Cause.code`, log 14).
`addr` is a natural number: an out-of-range address may exceed 16 bits (00_scope.md R8). -/
structure FaultRecord where
  cause : Cause
  pc : Addr
  word : Option Word
  addr : Option Nat
  deriving DecidableEq, Repr

/-- The run state of 10_state.md R32. -/
inductive Run where
  | running
  /-- an FX0A with register index x is suspended -/
  | awaitKey (x : RegIdx)
  /-- a fatal error occurred; every later step changes nothing -/
  | faulted (rec : FaultRecord)
  deriving DecidableEq, Repr

/-- The record of an unknown word executed under UNKNOWN_POLICY = NoOp (10_state.md R36). -/
structure UnknownWord where
  pc : Addr
  word : Word
  deriving DecidableEq, Repr

/-- The signals of a step (10_state.md R36). -/
structure Signals where
  draw : Bool
  unknown : Option UnknownWord
  awaiting : Bool
  deriving DecidableEq, Repr

/-- The signals a step starts from (30_encoding.md R83). -/
def Signals.none : Signals := ⟨false, Option.none, false⟩

/-- The machine state: the components of 10_state.md R20, and after them the constant Config record
(log 1), the signals of the last step (log 6) and the number of draws made (log 5). -/
structure State where
  mem : Memory
  /-- V0..VF -/
  regs : Vector Byte 16
  /-- I -/
  index : Addr
  pc : Addr
  /-- STACK[0..STACK_DEPTH-1]: as long as STACK_DEPTH says (`State.Inv` in Safety.lean) -/
  stack : List Addr
  /-- SP, in 0..STACK_DEPTH -/
  sp : Nat
  /-- DT -/
  dt : Byte
  /-- ST -/
  st : Byte
  /-- FB -/
  fb : Framebuffer
  /-- KEY -/
  keys : Vector Bool 16
  run : Run
  cfg : Config
  signals : Signals
  draws : Nat
  deriving DecidableEq, Repr

/-- Reasons for which a step stops the model: NONE. Every error of the spec is an entry into the
Faulted run state, whose effect 60_exceptions.md R213 gives, and so a next state (log 7). -/
inductive Fault where
  deriving DecidableEq, Repr

/-- Reasons for which an instruction has no meaning. -/
inductive Refusal where
  /-- raised by an arm of exec that has no meaning yet (none now); safe -/
  | notModelled (mnemonic : String)
  deriving DecidableEq, Repr

/-- The outcome of one step of this machine. -/
abbrev StepOutcome := Host.Outcome State Fault Refusal

/-- The state that `construct` builds for a Config before it loads the ROM (70_reset_and_hazards.md
R240, 10_state.md R38). -/
def State.initial (cfg : Config) : State where
  mem := []
  regs := Vector.replicate 16 0
  index := 0
  pc := 0x200
  stack := List.replicate cfg.stackDepth 0
  sp := 0
  dt := 0
  st := 0
  fb := Vector.replicate 32 (Vector.replicate 64 false)
  keys := Vector.replicate 16 false
  run := .running
  cfg := cfg
  signals := Signals.none
  draws := 0

/-- The machine right after reset: `construct` with the default Config and an empty ROM (log 2). -/
def State.reset : State := State.initial Config.default

end Sys2Proof.Machine
end

