-- ==== Sys2Proof/Machine/Ops.lean ====
section
/-! DEFINITION. The named operations over State: registers, pc, stack, memory, framebuffer, keys, draws,
the fetch, and taking a fatal error. -/

namespace Sys2Proof.Machine

/-! ### Registers -/

/-- V[x] (00_scope.md R7). -/
def State.v (s : State) (x : RegIdx) : Byte := s.regs[x.toNat]'x.isLt

/-- V[x] <- b (00_scope.md R7). No register is hardwired (10_state.md R21). -/
def State.setV (s : State) (x : RegIdx) (b : Byte) : State :=
  { s with regs := s.regs.set x.toNat b x.isLt }

/-- I <- a. -/
def State.setIndex (s : State) (a : Addr) : State := { s with index := a }

/-- DT <- b. -/
def State.setDt (s : State) (b : Byte) : State := { s with dt := b }

/-- ST <- b. -/
def State.setSt (s : State) (b : Byte) : State := { s with st := b }

/-- FB <- fb. -/
def State.setFb (s : State) (fb : Framebuffer) : State := { s with fb := fb }

/-- run <- r. -/
def State.setRun (s : State) (r : Run) : State := { s with run := r }

/-- The signals of the step (10_state.md R36). -/
def State.setSignals (s : State) (g : Signals) : State := { s with signals := g }

/-- mem <- m. -/
def State.setMem (s : State) (m : Memory) : State := { s with mem := m }

/-! ### Program counter -/

/-- pc <- target (00_scope.md R7). -/
def State.setPc (s : State) (target : Addr) : State := { s with pc := target }

/-- What every executed step does first: clear the signals (30_encoding.md R83) and pc <- (a + 2) mod
2^16 (R73). A meaning is applied to the state before this (log 8). -/
def State.advance (s : State) : State := { s with pc := s.pc + 2, signals := Signals.none }

/-- A skip: pc <- (pc + 2) mod 2^16 after the fetch advance (40_control.md R104), if the condition
holds. -/
def State.skipIf (s : State) (cond : Bool) : State := if cond then s.setPc (s.pc + 2) else s

/-! ### Taking a fatal error -/

/-- `raise E(info)` (00_scope.md R9, 60_exceptions.md R213), on the state BEFORE the step: every write
of the step is discarded and run becomes Faulted; pc still holds a. The step has no signals (log 6).
There is no return from it but `construct` (R215), in Machine/Transactions.lean. -/
def raise (s : State) (cause : Cause) (word : Option Word) (addr : Option Nat) : StepOutcome :=
  .next { s with run := .faulted ⟨cause, s.pc, word, addr⟩, signals := Signals.none }

/-! ### Stack -/

/-- Push(v) (10_state.md R27); none where it raises StackOverflow. -/
def State.push (s : State) (a : Addr) : Option State :=
  if s.cfg.stackDepth ≤ s.sp then none
  else some { s with stack := s.stack.set s.sp a, sp := s.sp + 1 }

/-- The entry STACK[k]; 0 where there is none, which no state of a run asks for (log 12). -/
def State.stackEntry (s : State) (k : Nat) : Addr := s.stack.getD k 0

/-- Pop() (10_state.md R28): the popped value and the state after; none where it raises StackUnderflow.
The entry at the old top keeps its value. -/
def State.pop (s : State) : Option (Addr × State) :=
  match s.sp with
  | 0 => none
  | k + 1 => some (s.stackEntry k, { s with sp := k })

/-! ### Memory -/

/-- The contents of memory after reset (70_reset_and_hazards.md R240, 20_memory.md R51): FONT at
0x050..0x09F, every other byte 0x00. What an address that `Memory` does not list reads as. -/
def resetByte (font : Font) (a : Nat) : Byte :=
  if h : 0x050 ≤ a ∧ a < 0x0A0 then font[a - 0x050] else 0

/-- mem[a]. -/
def Memory.get (font : Font) : Memory → Nat → Byte
  | [], a => resetByte font a
  | (k, c) :: m, a => if k = a then c else Memory.get font m a

/-- mem[a] <- b, keeping the canonical form: an entry equal to the reset image is removed. -/
def Memory.put (font : Font) : Memory → Nat → Byte → Memory
  | [], a, b => if b = resetByte font a then [] else [(a, b)]
  | (k, c) :: m, a, b =>
    if a < k then
      if b = resetByte font a then (k, c) :: m else (a, b) :: (k, c) :: m
    else if a = k then
      if b = resetByte font a then m else (a, b) :: m
    else (k, c) :: Memory.put font m a b

/-- The canonical form: addresses strictly rising and below 4096, no entry equal to the reset image. -/
abbrev Memory.wf (font : Font) (m : Memory) : Prop :=
  m.Pairwise (fun c d => c.1 < d.1) ∧ ∀ c ∈ m, c.1 < 4096 ∧ c.2 ≠ resetByte font c.1

/-- mem[a] of a state, for a below 4096: the byte itself, no policy applied. -/
def State.byteAt (s : State) (a : Nat) : Byte := s.mem.get s.cfg.font a

/-- Resolve(addr) (20_memory.md R53): the address of `mem` it stands for, or the address reported by
MemoryOutOfBounds. -/
def State.resolve (s : State) (addr : Nat) : Except Nat Nat :=
  if addr < 4096 then .ok addr
  else
    match s.cfg.oobPolicy with
    | .wrap => .ok (addr % 4096)
    | .fatal => .error addr

/-- MemRead(addr, 1) (20_memory.md R53). -/
def State.memRead (s : State) (addr : Nat) : Except Nat Byte :=
  match s.resolve addr with
  | .ok a => .ok (s.byteAt a)
  | .error e => .error e

/-- MemWrite(addr, 1, b) (20_memory.md R53). -/
def State.memWrite (s : State) (addr : Nat) (b : Byte) : Except Nat State :=
  match s.resolve addr with
  | .ok a => .ok (s.setMem (s.mem.put s.cfg.font a b))
  | .error e => .error e

/-- The bytes at addr, addr + 1, ..., n of them, read in that order; the error is the lowest address
out of range (60_exceptions.md R216). -/
def State.readBytes (s : State) (addr : Nat) : Nat → Except Nat (List Byte)
  | 0 => .ok []
  | n + 1 =>
    match s.memRead addr with
    | .error e => .error e
    | .ok b =>
      match s.readBytes (addr + 1) n with
      | .error e => .error e
      | .ok bs => .ok (b :: bs)

/-- Write the bytes to addr, addr + 1, ... in that order; the error is the lowest address out of
range. -/
def State.writeBytes (s : State) (addr : Nat) : List Byte → Except Nat State
  | [] => .ok s
  | b :: bs =>
    match s.memWrite addr b with
    | .error e => .error e
    | .ok t => t.writeBytes (addr + 1) bs

/-! ### The fetch -/

/-- The fetch (30_encoding.md R72): the word at pc, the byte at pc its high byte, or the first address
out of range. -/
def State.fetch (s : State) : Except Nat Word :=
  match s.memRead s.pc.toNat with
  | .error e => .error e
  | .ok hi =>
    match s.memRead (s.pc.toNat + 1) with
    | .error e => .error e
    | .ok lo => .ok (wordOfBytes hi lo)

/-- An unknown word w (30_encoding.md R78), on the state before the step. -/
def unknownWord (w : Word) (s : State) : StepOutcome :=
  match s.cfg.unknownPolicy with
  | .fatal => raise s .unknownOpcode (some w) none
  | .noOp => .next (s.advance.setSignals { Signals.none with unknown := some ⟨s.pc, w⟩ })

/-! ### Framebuffer -/

/-- FB[y][x]; false outside the screen. -/
def Framebuffer.pixel (fb : Framebuffer) (y x : Nat) : Bool :=
  if h : y < 32 ∧ x < 64 then (fb[y]'h.1)[x]'h.2 else false

/-- FB[y][x] <- FB[y][x] ^ 1; nothing outside the screen. -/
def Framebuffer.flip (fb : Framebuffer) (y x : Nat) : Framebuffer :=
  if h : y < 32 ∧ x < 64 then
    fb.set y ((fb[y]'h.1).set x (!(fb[y]'h.1)[x]'h.2) h.2) h.1
  else fb

/-- The clear framebuffer (43_display.md R171). -/
def Framebuffer.clear : Framebuffer := Vector.replicate 32 (Vector.replicate 64 false)

/-- A sprite plot in progress: the framebuffer and the collision flag (43_display.md R172). -/
structure Plot where
  fb : Framebuffer
  collide : Bool
  deriving DecidableEq, Repr

/-- Bit c of a sprite row, from the most significant: (row >> (7 - c)) & 1 (43_display.md R172, R173). -/
def spriteBit (row : Byte) (c : Nat) : Bool := row.getLsbD (7 - c)

/-- One column of the inner loop of 43_display.md R172: clipped pixels are not drawn and set no
collision. -/
def plotColumn (px0 py : Nat) (row : Byte) (p : Plot) (c : Nat) : Plot :=
  let px := px0 + c
  if 32 ≤ py then p
  else if 64 ≤ px then p
  else if spriteBit row c then ⟨p.fb.flip py px, p.collide || p.fb.pixel py px⟩
  else p

/-- One row of the sprite: columns 0 to 7 (43_display.md R172). -/
def plotRow (px0 py : Nat) (row : Byte) (p : Plot) : Plot :=
  [0, 1, 2, 3, 4, 5, 6, 7].foldl (plotColumn px0 py row) p

/-- The rows of the sprite, the first at py (43_display.md R172). -/
def plotRows (px0 py : Nat) : List Byte → Plot → Plot
  | [], p => p
  | row :: rows, p => plotRows px0 (py + 1) rows (plotRow px0 py row p)

/-! ### Keys and draws -/

/-- KEY[k] (10_state.md R31). -/
def State.key (s : State) (k : KeyIdx) : Bool := s.keys[k.toNat]'k.isLt

/-- The pressed keys, in rising order. -/
def State.pressedKeys (s : State) : List KeyIdx :=
  [0x0, 0x1, 0x2, 0x3, 0x4, 0x5, 0x6, 0x7, 0x8, 0x9, 0xA, 0xB, 0xC, 0xD, 0xE, 0xF].filter s.key

/-- The key that a choice picks from k :: ks: any of them, by the choice. -/
def pickKey (choice : Nat) (k : KeyIdx) (ks : List KeyIdx) : KeyIdx :=
  (k :: ks).getD (choice % (ks.length + 1)) k

/-- PickPressedKey() (00_scope.md R10): one of the pressed keys, which one left free (log 4); none when
no key is pressed. -/
def State.pickPressedKey (s : State) : Option KeyIdx :=
  match s.pressedKeys with
  | [] => none
  | k :: ks => some (pickKey (Config.pressedKeyChoice s.draws) k ks)

/-- One draw has been made (log 5). -/
def State.countDraw (s : State) : State := { s with draws := s.draws + 1 }

end Sys2Proof.Machine
end

