-- ==== Sys2Proof/Machine/Flags.lean ====
section
/-! DEFINITION. The flag computations. VF is the only flag (10_state.md R22); each is computed on exact
natural numbers (00_scope.md R6). -/

namespace Sys2Proof.Machine

/-- A flag as VF holds it: 1 or 0. -/
def flagByte (b : Bool) : Byte := if b then 1 else 0

/-- VF <- flag, the last write of a flag-producing instruction (10_state.md R22, 41_alu.md R133). -/
def State.setFlag (s : State) (b : Bool) : State := s.setV 0xF (flagByte b)

/-- 8XY4: sum > 255 (41_alu.md R126). -/
def carryOf (vx vy : Byte) : Bool := decide (255 < vx.toNat + vy.toNat)

/-- a - b without borrow: a >= b (41_alu.md R127, R129). -/
def noBorrowOf (a b : Byte) : Bool := decide (b.toNat ≤ a.toNat)

/-- 8XY6: the bit shifted out, s & 1 (41_alu.md R128). -/
def shiftedOutRight (b : Byte) : Bool := decide (b.toNat % 2 = 1)

/-- 8XYE: the bit shifted out, s >> 7 (41_alu.md R130). -/
def shiftedOutLeft (b : Byte) : Bool := decide (128 ≤ b.toNat)

/-- FX1E under the quirk: the untruncated sum exceeds 0x0FFF (42_index_memory.md R151, D8; log 13). -/
def pastMemory (i : Addr) (vx : Byte) : Bool := decide (0x0FFF < i.toNat + vx.toNat)

end Sys2Proof.Machine
end

