-- ==== Sys2Proof/Machine/Operands.lean ====
section
/-! DEFINITION. The operand forms and the result of each ALU operation. Values are unsigned, computed on
natural numbers and narrowed at the end (00_scope.md R6, 41_alu.md R131). -/

namespace Sys2Proof.Machine

/-- zext_16(nnn) (30_encoding.md R84). -/
def zextAddr (nnn : Addr12) : Addr := nnn.setWidth 16

/-- The source of SHR and SHL, by SHIFT_SRC (41_alu.md R128, R130). -/
def State.shiftSource (s : State) (x y : RegIdx) : Byte :=
  match s.cfg.shiftSrc with
  | .vx => s.v x
  | .vy => s.v y

/-- The register BNNN adds, by JUMP_OFFSET: V0, or Vx with x = nnn[11:8] (40_control.md R103). -/
def jumpRegister (cfg : Config) (nnn : Addr12) : RegIdx :=
  match cfg.jumpOffset with
  | .v0 => 0
  | .vx => nnn.extractLsb' 8 4

/-- The target of BNNN: (zext_16(nnn) + V[r]) mod 2^16 (40_control.md R103). -/
def State.jumpTarget (s : State) (nnn : Addr12) : Addr :=
  BitVec.ofNat 16 (nnn.toNat + (s.v (jumpRegister s.cfg nnn)).toNat)

/-- (a + b) mod 256 (41_alu.md R121, R126). -/
def addBytes (a b : Byte) : Byte := BitVec.ofNat 8 (a.toNat + b.toNat)

/-- (a - b) mod 256 (41_alu.md R127, R129). -/
def subBytes (a b : Byte) : Byte := BitVec.ofInt 8 ((a.toNat : Int) - b.toNat)

/-- s >> 1 (41_alu.md R128). -/
def shiftRight (b : Byte) : Byte := BitVec.ofNat 8 (b.toNat / 2)

/-- (s << 1) mod 256 (41_alu.md R130). -/
def shiftLeft (b : Byte) : Byte := BitVec.ofNat 8 (b.toNat * 2)

/-- (I + vx) mod 2^16 (42_index_memory.md R151). -/
def addIndex (i : Addr) (vx : Byte) : Addr := BitVec.ofNat 16 (i.toNat + vx.toNat)

/-- FONT_BASE + 5 * vx, unmasked (42_index_memory.md R152). -/
def glyphAddr (vx : Byte) : Addr := BitVec.ofNat 16 (0x050 + 5 * vx.toNat)

/-- The decimal digits of vx: hundreds, tens, ones (42_index_memory.md R153). -/
def decimalDigits (vx : Byte) : List Byte :=
  [BitVec.ofNat 8 (vx.toNat / 100), BitVec.ofNat 8 (vx.toNat / 10 % 10), BitVec.ofNat 8 (vx.toNat % 10)]

/-- The values of V0..Vx, V0 first (42_index_memory.md R154). -/
def State.regBlock (s : State) (x : RegIdx) : List Byte :=
  (List.range (x.toNat + 1)).map (fun k => s.v (BitVec.ofNat 4 k))

/-- V[k], V[k+1], ... <- the bytes (42_index_memory.md R155). -/
def State.setRegBlock (s : State) (k : Nat) : List Byte → State
  | [] => s
  | b :: bs => (s.setV (BitVec.ofNat 4 k) b).setRegBlock (k + 1) bs

/-- The key a register selects: vx & 0xF (44_keys_timers.md R192). -/
def keyIndex (vx : Byte) : KeyIdx := vx.extractLsb' 0 4

/-- The column a sprite starts at: vx mod 64 (43_display.md R172). -/
def startColumn (vx : Byte) : Nat := vx.toNat % 64

/-- The row a sprite starts at: vy mod 32 (43_display.md R172). -/
def startRow (vy : Byte) : Nat := vy.toNat % 32

end Sys2Proof.Machine
end

