-- ==== Sys2Proof/Machine/Alu.lean ====
section
/-! DEFINITION. Register loads and ALU (41_alu.md). Operands are read before any write; the flag is
written last (R133). -/

namespace Sys2Proof.Machine

/-- Write a result to Vx and then the flag to VF (10_state.md R22). -/
def State.setResult (s : State) (x : RegIdx) (result : Byte) (flag : Bool) : State :=
  (s.setV x result).setFlag flag

/-- 6XNN LD Vx, nn (41_alu.md R120). -/
def execLdImm (x : RegIdx) (nn : Byte) (s : State) : StepOutcome :=
  .next (s.advance.setV x nn)

/-- 7XNN ADD Vx, nn (41_alu.md R121): no flag. -/
def execAddImm (x : RegIdx) (nn : Byte) (s : State) : StepOutcome :=
  .next (s.advance.setV x (addBytes (s.v x) nn))

/-- 8XY0 LD Vx, Vy (41_alu.md R122). -/
def execLdReg (x y : RegIdx) (s : State) : StepOutcome :=
  .next (s.advance.setV x (s.v y))

/-- 8XY1 OR Vx, Vy (41_alu.md R123): VF unchanged unless x = 0xF. -/
def execOrReg (x y : RegIdx) (s : State) : StepOutcome :=
  .next (s.advance.setV x (s.v x ||| s.v y))

/-- 8XY2 AND Vx, Vy (41_alu.md R124). -/
def execAndReg (x y : RegIdx) (s : State) : StepOutcome :=
  .next (s.advance.setV x (s.v x &&& s.v y))

/-- 8XY3 XOR Vx, Vy (41_alu.md R125). -/
def execXorReg (x y : RegIdx) (s : State) : StepOutcome :=
  .next (s.advance.setV x (s.v x ^^^ s.v y))

/-- 8XY4 ADD Vx, Vy (41_alu.md R126). -/
def execAddReg (x y : RegIdx) (s : State) : StepOutcome :=
  .next (s.advance.setResult x (addBytes (s.v x) (s.v y)) (carryOf (s.v x) (s.v y)))

/-- 8XY5 SUB Vx, Vy (41_alu.md R127). -/
def execSubReg (x y : RegIdx) (s : State) : StepOutcome :=
  .next (s.advance.setResult x (subBytes (s.v x) (s.v y)) (noBorrowOf (s.v x) (s.v y)))

/-- 8XY6 SHR Vx, Vy (41_alu.md R128). -/
def execShr (x y : RegIdx) (s : State) : StepOutcome :=
  .next (s.advance.setResult x (shiftRight (s.shiftSource x y)) (shiftedOutRight (s.shiftSource x y)))

/-- 8XY7 SUBN Vx, Vy (41_alu.md R129). -/
def execSubnReg (x y : RegIdx) (s : State) : StepOutcome :=
  .next (s.advance.setResult x (subBytes (s.v y) (s.v x)) (noBorrowOf (s.v y) (s.v x)))

/-- 8XYE SHL Vx, Vy (41_alu.md R130). -/
def execShl (x y : RegIdx) (s : State) : StepOutcome :=
  .next (s.advance.setResult x (shiftLeft (s.shiftSource x y)) (shiftedOutLeft (s.shiftSource x y)))

/-- CXNN RND Vx, nn for a drawn byte r (41_alu.md R137). -/
def execRndWith (r : Byte) (x : RegIdx) (nn : Byte) (s : State) : StepOutcome :=
  .next (s.advance.countDraw.setV x (r &&& nn))

/-- CXNN RND Vx, nn (41_alu.md R137): the byte is a free value, another at each execution (log 3). -/
def execRnd (x : RegIdx) (nn : Byte) (s : State) : StepOutcome :=
  execRndWith (Config.randomByte s.draws) x nn s

end Sys2Proof.Machine
end

