-- ==== Sys2Proof/Machine/Control.lean ====
section
/-! DEFINITION. Control transfer and skips (40_control.md). Each meaning takes the state before the
step, with pc = a, and makes the whole step (log 8). -/

namespace Sys2Proof.Machine

/-- 00EE RET (40_control.md R100). -/
def execRet (s : State) : StepOutcome :=
  match s.advance.pop with
  | none => raise s .stackUnderflow (some (encode .ret)) none
  | some (target, t) => .next (t.setPc target)

/-- 1NNN JP nnn (40_control.md R101). -/
def execJp (nnn : Addr12) (s : State) : StepOutcome :=
  .next (s.advance.setPc (zextAddr nnn))

/-- 2NNN CALL nnn (40_control.md R102): the pushed value is a + 2. -/
def execCall (nnn : Addr12) (s : State) : StepOutcome :=
  match s.advance.push s.advance.pc with
  | none => raise s .stackOverflow (some (encode (.call nnn))) none
  | some t => .next (t.setPc (zextAddr nnn))

/-- BNNN JP V0, nnn (40_control.md R103). -/
def execJpV0 (nnn : Addr12) (s : State) : StepOutcome :=
  .next (s.advance.setPc (s.jumpTarget nnn))

/-- 3XNN SE Vx, nn (40_control.md R104). -/
def execSeImm (x : RegIdx) (nn : Byte) (s : State) : StepOutcome :=
  .next (s.advance.skipIf (decide (s.v x = nn)))

/-- 4XNN SNE Vx, nn (40_control.md R105). -/
def execSneImm (x : RegIdx) (nn : Byte) (s : State) : StepOutcome :=
  .next (s.advance.skipIf (decide (s.v x ≠ nn)))

/-- 5XY0 SE Vx, Vy (40_control.md R106). -/
def execSeReg (x y : RegIdx) (s : State) : StepOutcome :=
  .next (s.advance.skipIf (decide (s.v x = s.v y)))

/-- 9XY0 SNE Vx, Vy (40_control.md R107). -/
def execSneReg (x y : RegIdx) (s : State) : StepOutcome :=
  .next (s.advance.skipIf (decide (s.v x ≠ s.v y)))

end Sys2Proof.Machine
end

