-- ==== Sys2Proof/Machine/Display.lean ====
section
/-! DEFINITION. Clear and draw (43_display.md). -/

namespace Sys2Proof.Machine

/-- The signals of a step that executed 00E0 or DXYN (43_display.md R175). -/
def drawSignals : Signals := { Signals.none with draw := true }

/-- 00E0 CLS (43_display.md R171): VF is unchanged. -/
def execCls (s : State) : StepOutcome :=
  .next ((s.advance.setFb Framebuffer.clear).setSignals drawSignals)

/-- DXYN DRW Vx, Vy, n (43_display.md R172): every row is read, clipped or not, before a pixel changes. -/
def execDrw (x y : RegIdx) (n : BitVec 4) (s : State) : StepOutcome :=
  match s.readBytes s.index.toNat n.toNat with
  | .error addr => raise s .memoryOutOfBounds (some (encode (.drw x y n))) (some addr)
  | .ok rows =>
    let p := plotRows (startColumn (s.v x)) (startRow (s.v y)) rows ⟨s.fb, false⟩
    .next (((s.advance.setFb p.fb).setFlag p.collide).setSignals drawSignals)

end Sys2Proof.Machine
end

