-- ==== Sys2Proof/Machine/IndexMemory.lean ====
section
/-! DEFINITION. The index register and memory transfers (42_index_memory.md). I is never changed by an
access (R66); an access out of range discards every write (60_exceptions.md R213). -/

namespace Sys2Proof.Machine

/-- ANNN LD I, nnn (42_index_memory.md R150). -/
def execLdI (nnn : Addr12) (s : State) : StepOutcome :=
  .next (s.advance.setIndex (zextAddr nnn))

/-- FX1E ADD I, Vx (42_index_memory.md R151): VF is written last, under FX1E_SETS_VF only. -/
def execAddI (x : RegIdx) (s : State) : StepOutcome :=
  let t := s.advance.setIndex (addIndex s.index (s.v x))
  .next (if s.cfg.fx1eSetsVf then t.setFlag (pastMemory s.index (s.v x)) else t)

/-- FX29 LD F, Vx (42_index_memory.md R152). -/
def execLdF (x : RegIdx) (s : State) : StepOutcome :=
  .next (s.advance.setIndex (glyphAddr (s.v x)))

/-- FX33 LD B, Vx (42_index_memory.md R153). -/
def execLdB (x : RegIdx) (s : State) : StepOutcome :=
  match s.advance.writeBytes s.index.toNat (decimalDigits (s.v x)) with
  | .error addr => raise s .memoryOutOfBounds (some (encode (.ldB x))) (some addr)
  | .ok t => .next t

/-- FX55 LD [I], Vx (42_index_memory.md R154). -/
def execStoreRegs (x : RegIdx) (s : State) : StepOutcome :=
  match s.advance.writeBytes s.index.toNat (s.regBlock x) with
  | .error addr => raise s .memoryOutOfBounds (some (encode (.storeRegs x))) (some addr)
  | .ok t => .next t

/-- FX65 LD Vx, [I] (42_index_memory.md R155). -/
def execLoadRegs (x : RegIdx) (s : State) : StepOutcome :=
  match s.readBytes s.index.toNat (x.toNat + 1) with
  | .error addr => raise s .memoryOutOfBounds (some (encode (.loadRegs x))) (some addr)
  | .ok bytes => .next (s.advance.setRegBlock 0 bytes)

end Sys2Proof.Machine
end

