-- ==== Sys2Proof/Machine/KeysTimers.lean ====
section
/-! DEFINITION. Key input and timer access (44_keys_timers.md). -/

namespace Sys2Proof.Machine

/-- EX9E SKP Vx (44_keys_timers.md R190). -/
def execSkp (x : RegIdx) (s : State) : StepOutcome :=
  .next (s.advance.skipIf (s.key (keyIndex (s.v x))))

/-- EXA1 SKNP Vx (44_keys_timers.md R191). -/
def execSknp (x : RegIdx) (s : State) : StepOutcome :=
  .next (s.advance.skipIf (!s.key (keyIndex (s.v x))))

/-- FX07 LD Vx, DT (44_keys_timers.md R193). -/
def execLdVxDt (x : RegIdx) (s : State) : StepOutcome :=
  .next (s.advance.setV x s.dt)

/-- FX15 LD DT, Vx (44_keys_timers.md R194). -/
def execLdDtVx (x : RegIdx) (s : State) : StepOutcome :=
  .next (s.advance.setDt (s.v x))

/-- FX18 LD ST, Vx (44_keys_timers.md R195). -/
def execLdStVx (x : RegIdx) (s : State) : StepOutcome :=
  .next (s.advance.setSt (s.v x))

/-- A key code as a register holds it. -/
def keyCode (k : KeyIdx) : Byte := k.setWidth 8

/-- The signals of a step that left run = AwaitKey (10_state.md R36). -/
def awaitingSignals : Signals := { Signals.none with awaiting := true }

/-- FX0A completes: the drawn key's code goes to Vx, pc moves past the instruction, and the core runs
on (44_keys_timers.md R196). pc = a before, in the Running and in the AwaitKey state alike. -/
def completeKeyWait (x : RegIdx) (k : KeyIdx) (s : State) : StepOutcome :=
  .next ((s.advance.countDraw.setV x (keyCode k)).setRun .running)

/-- FX0A LD Vx, K (44_keys_timers.md R196): with no key pressed pc goes back to a, where it stands in the
state before the step, and the core waits. -/
def execLdVxK (x : RegIdx) (s : State) : StepOutcome :=
  match s.pickPressedKey with
  | some k => completeKeyWait x k s
  | none => .next ((s.setRun (.awaitKey x)).setSignals awaitingSignals)

/-- A step in the AwaitKey(x) state (44_keys_timers.md R196): it makes no fetch. -/
def awaitKeyStep (x : RegIdx) (s : State) : StepOutcome :=
  match s.pickPressedKey with
  | some k => completeKeyWait x k s
  | none => .next (s.setSignals awaitingSignals)

end Sys2Proof.Machine
end

