-- ==== Sys2Proof/Machine/Step.lean ====
section
/-! DEFINITION. One step (30_encoding.md R83). -/

namespace Sys2Proof.Machine

/-- `step()` (30_encoding.md R83). A step in the Faulted state changes nothing (60_exceptions.md R214); a
step in the AwaitKey state makes no fetch (44_keys_timers.md R196); in the Running state the core fetches
at pc, decodes, and executes the instruction or handles the unknown word. -/
def step (s : State) : Host.Outcome State Fault Refusal :=
  match s.run with
  | .faulted _ => .next s
  | .awaitKey x => awaitKeyStep x s
  | .running =>
    match s.fetch with
    | .error addr => raise s .memoryOutOfBounds none (some addr)
    | .ok w =>
      match decode w with
      | .ok i => exec i s
      | .error _ => unknownWord w s

/-- `s` with the bytes of a word stored where the fetch reads, and the core Running, so that the next
step fetches and runs it. Where the policy gives the fetch no address (pc out of range, OOB_POLICY =
Fatal) there is no place to store to, and only `run` is set (log 11). -/
def State.withFetchWord (s : State) (nbits w : Nat) : State :=
  let word := tableWord nbits w
  match s.writeBytes s.pc.toNat [highByte word, lowByte word] with
  | .ok t => t.setRun .running
  | .error _ => s.setRun .running

end Sys2Proof.Machine
end

