-- ==== Sys2Proof/Machine/Transactions.lean ====
section
/-! DEFINITION. The transactions between the core and its collaborators (10_state.md R40 to R43), the
timer decrement engine (60_exceptions.md R219) and reset (70_reset_and_hazards.md R240). -/

namespace Sys2Proof.Machine

/-- One timer count: at most 1 down, no lower than 0 (60_exceptions.md R219). -/
def countDown (b : Byte) : Byte := BitVec.ofNat 8 (b.toNat - 1)

/-- `tick_timers()` (60_exceptions.md R219): the same in every run state, DT and ST only (R220). -/
def State.tick (s : State) : State := (s.setDt (countDown s.dt)).setSt (countDown s.st)

/-- `set_key(k, b)` (10_state.md R40, 60_exceptions.md R222). -/
def State.setKey (s : State) (k : KeyIdx) (b : Bool) : State :=
  { s with keys := s.keys.set k.toNat b k.isLt }

/-- `sound_active()` (10_state.md R42). -/
def State.soundActive (s : State) : Bool := decide (s.st ≠ 0)

/-- The entry point, where the ROM is placed (00_scope.md R4). -/
def programStart : Nat := 0x200

/-- MAX_ROM = 4096 - 0x200 (00_scope.md R4). -/
def maxRom : Nat := 3584

/-- LoadRom (70_reset_and_hazards.md R242, R243): byte k of the ROM goes to mem[0x200 + k]; a ROM that
is too long is not loaded at all, and the core is Faulted. -/
def State.loadRom (s : State) (rom : List Byte) : State :=
  if maxRom < rom.length then
    s.setRun (.faulted ⟨.romTooLarge, 0x200, none, some (programStart + rom.length)⟩)
  else
    match s.writeBytes programStart rom with
    | .ok t => t
    | .error _ => s

/-- `construct(cfg, rom)` (70_reset_and_hazards.md R240): the only reset, and the only way out of
Faulted (60_exceptions.md R215). -/
def State.construct (cfg : Config) (rom : List Byte) : State := (State.initial cfg).loadRom rom

/-- The code of a cause (60_exceptions.md R210). -/
def Cause.code : Cause → Nat
  | .stackOverflow => 1
  | .stackUnderflow => 2
  | .unknownOpcode => 3
  | .memoryOutOfBounds => 4
  | .romTooLarge => 5

/-- The code of a fault record (10_state.md R33). -/
def FaultRecord.code (r : FaultRecord) : Nat := r.cause.code

/-- What `step()` returns (10_state.md R36). -/
inductive StepResult where
  | ok (signals : Signals)
  | fatal (rec : FaultRecord)
  deriving DecidableEq, Repr

/-- The result of the step that left this state: Fatal(rec) exactly when the core is Faulted
(60_exceptions.md R213, R214). -/
def State.stepResult (s : State) : StepResult :=
  match s.run with
  | .faulted r => .fatal r
  | _ => .ok s.signals

/-! The port values of 10_state.md R41. -/

/-- `status`: 0 Running, 1 AwaitKey, 2 Faulted. -/
def State.statusPort (s : State) : BitVec 2 :=
  match s.run with
  | .running => 0
  | .awaitKey _ => 1
  | .faulted _ => 2

/-- `fault_code`: the code while Faulted, else 0. -/
def State.faultCodePort (s : State) : BitVec 3 :=
  match s.run with
  | .faulted r => BitVec.ofNat 3 r.code
  | _ => 0

/-- `fb_pixel` = FB[fb_addr[10:6]][fb_addr[5:0]]. -/
def State.fbPixelPort (s : State) (fbAddr : BitVec 11) : Bool :=
  s.fb.pixel (fbAddr.extractLsb' 6 5).toNat (fbAddr.extractLsb' 0 6).toNat

/-- `sound`. -/
def State.soundPort (s : State) : Bool := s.soundActive

/-- `draw_evt`. -/
def State.drawEvtPort (s : State) : Bool := s.signals.draw

/-- `unk_evt`. -/
def State.unkEvtPort (s : State) : Bool := s.signals.unknown.isSome

/-- The transactions of 10_state.md R40. -/
inductive Transaction where
  | construct (cfg : Config) (rom : List Byte)
  | step
  | tickTimers
  | setKey (k : KeyIdx) (b : Bool)
  | readFb
  | soundActive
  | status
  deriving DecidableEq, Repr

/-- What a transaction returns (10_state.md R40). -/
inductive Response where
  | none
  /-- of `construct`: Ok -/
  | constructed
  /-- of `construct`: RomTooLarge -/
  | romTooLarge
  | step (r : StepResult)
  | fb (fb : Framebuffer)
  | sound (b : Bool)
  | status (r : Run)
  deriving DecidableEq, Repr

/-- The response to `construct` in the state it leaves. -/
def State.constructResponse (s : State) : Response :=
  match s.run with
  | .faulted _ => .romTooLarge
  | _ => .constructed

/-- One transaction: the state it leaves and what it returns. A new `construct` goes on counting draws
where the old core stopped, so that no draw is made twice (log 5). -/
def transact (t : Transaction) (s : State) : Host.Outcome (State × Response) Fault Refusal :=
  match t with
  | .construct cfg rom =>
    let c := State.construct cfg rom
    .next ({ c with draws := s.draws }, c.constructResponse)
  | .step =>
    match step s with
    | .next s' => .next (s', .step s'.stepResult)
    | .fault f => .fault f
    | .refused r => .refused r
  | .tickTimers => .next (s.tick, .none)
  | .setKey k b => .next (s.setKey k b, .none)
  | .readFb => .next (s, .fb s.fb)
  | .soundActive => .next (s, .sound s.soundActive)
  | .status => .next (s, .status s.run)

/-- A run: the host's transactions one at a time, in the order it issues them (20_memory.md R60). -/
def transactAll : List Transaction → State → Host.Outcome State Fault Refusal
  | [], s => .next s
  | t :: ts, s =>
    match transact t s with
    | .next (s', _) => transactAll ts s'
    | .fault f => .fault f
    | .refused r => .refused r

end Sys2Proof.Machine
end

