-- ==== Sys2Proof/WellFormed.lean ====
section
/-! DEFINITION. Which terms the spec admits.

Instr needs no check: each field has exactly the width of its place in the word, so every value is
legal ("x, y: register indices 0..15, always in range", 30_encoding.md R84; "any 16-bit input is valid
to decode", R74). The Config record has one field wider than its range. -/

namespace Sys2Proof

/-- STACK_DEPTH is an "integer in 12..16" (00_scope.md R4); every other field of Config is legal at
every value of its type. -/
def Config.wf (c : Config) : Bool := decide (12 ≤ c.stackDepth) && decide (c.stackDepth ≤ 16)

end Sys2Proof
end

