-- ==== Sys2Proof/Safety.lean ====
section
/-! DEFINITION. What a well-formed state, a safe run and a frame are, in the terms claims use. -/

namespace Sys2Proof.Machine

/-- No fatal error has occurred (10_state.md R32). -/
def State.safe (s : State) : Bool :=
  match s.run with
  | .faulted _ => false
  | _ => true

/-- The signals of the last step fit the run state (10_state.md R36): `awaiting` is true exactly in the
AwaitKey state, and a Faulted core has no signals (log 6). -/
def State.signalsFit (s : State) : Bool :=
  match s.run with
  | .running => !s.signals.awaiting
  | .awaitKey _ => decide (s.signals = ⟨false, none, true⟩)
  | .faulted _ => decide (s.signals = Signals.none)

/-- The well-formed states: those the spec's machine can be in as far as each component alone tells
(10_state.md R20, R26; 20_memory.md R50). -/
structure State.Inv (s : State) : Prop where
  cfg_wf : s.cfg.wf = true
  stack_length : s.stack.length = s.cfg.stackDepth
  sp_le : s.sp ≤ s.cfg.stackDepth
  mem_wf : s.mem.wf s.cfg.font
  signals_fit : s.signalsFit = true

/-- Which components an instruction may write, pc and the signals apart (10_state.md R39). -/
structure Writes where
  reg : RegIdx → Bool := fun _ => false
  index : Bool := false
  stack : Bool := false
  dt : Bool := false
  st : Bool := false
  fb : Bool := false
  run : Bool := false
  draws : Bool := false
  byte : Nat → Bool := fun _ => false

/-- Everything outside `w`, pc and the signals apart, is in `t` as it was in `s`: each register, I, the
stack with SP, the timers, the framebuffer, the run state, the count of draws, every byte of memory, and
always the keys and the Config record, which no instruction writes (10_state.md R31, 00_scope.md R5). -/
structure Frame (w : Writes) (s t : State) : Prop where
  regs : ∀ j, w.reg j = false → t.v j = s.v j
  index : w.index = false → t.index = s.index
  stack : w.stack = false → t.stack = s.stack ∧ t.sp = s.sp
  dt : w.dt = false → t.dt = s.dt
  st : w.st = false → t.st = s.st
  fb : w.fb = false → t.fb = s.fb
  run : w.run = false → t.run = s.run
  draws : w.draws = false → t.draws = s.draws
  bytes : ∀ a, w.byte a = false → t.byteAt a = s.byteAt a
  keys : t.keys = s.keys
  cfg : t.cfg = s.cfg

/-- An access to addr resolves to address a of `mem` (20_memory.md R53). -/
def State.resolvesTo (s : State) (addr a : Nat) : Bool :=
  match s.resolve addr with
  | .ok b => decide (b = a)
  | .error _ => false

/-- Address a of `mem` is one that an access to I + k resolves to, for some k below n: what an instruction
that stores n bytes stores to (20_memory.md R66). -/
def State.storesTo (s : State) (n a : Nat) : Bool :=
  (List.range n).any (fun k => s.resolvesTo (s.index.toNat + k) a)

/-- Every access to I + k, k below n, resolves: under OOB_POLICY = Fatal all of them are below 4096
(20_memory.md R53). -/
def State.blockResolves (s : State) (n : Nat) : Bool :=
  decide (s.cfg.oobPolicy = .wrap) || decide (s.index.toNat + n ≤ 4096) || decide (n = 0)

/-- The access matrix of 10_state.md R39: what instruction i writes in state s besides pc, whose column is
`writesPc` (and the run state and draws, which the matrix has no column for). -/
def writesOf (s : State) : Instr → Writes
  | .cls => { fb := true }
  | .ret => { stack := true }
  | .jp _ => {}
  | .call _ => { stack := true }
  | .seImm _ _ => {}
  | .sneImm _ _ => {}
  | .seReg _ _ => {}
  | .ldImm x _ => { reg := fun j => j = x }
  | .addImm x _ => { reg := fun j => j = x }
  | .ldReg x _ => { reg := fun j => j = x }
  | .orReg x _ => { reg := fun j => j = x }
  | .andReg x _ => { reg := fun j => j = x }
  | .xorReg x _ => { reg := fun j => j = x }
  | .addReg x _ => { reg := fun j => j = x || j = 0xF }
  | .subReg x _ => { reg := fun j => j = x || j = 0xF }
  | .shr x _ => { reg := fun j => j = x || j = 0xF }
  | .subnReg x _ => { reg := fun j => j = x || j = 0xF }
  | .shl x _ => { reg := fun j => j = x || j = 0xF }
  | .sneReg _ _ => {}
  | .ldI _ => { index := true }
  | .jpV0 _ => {}
  | .rnd x _ => { reg := fun j => j = x, draws := true }
  | .drw _ _ _ => { reg := fun j => j = 0xF, fb := true }
  | .skp _ => {}
  | .sknp _ => {}
  | .ldVxDt x => { reg := fun j => j = x }
  | .ldVxK x => { reg := fun j => j = x, run := true, draws := true }
  | .ldDtVx _ => { dt := true }
  | .ldStVx _ => { st := true }
  | .addI _ => { index := true, reg := fun j => s.cfg.fx1eSetsVf && decide (j = 0xF) }
  | .ldF _ => { index := true }
  | .ldB _ => { byte := s.storesTo 3 }
  | .storeRegs x => { byte := s.storesTo (x.toNat + 1) }
  | .loadRegs x => { reg := fun j => decide (j ≤ x) }

/-- The pc column of the access matrix of 10_state.md R39: instruction i writes pc beyond the advance that
every executed instruction makes. -/
def writesPc : Instr → Bool
  | .ret | .jp _ | .call _ | .jpV0 _ => true
  | .seImm _ _ | .sneImm _ _ | .seReg _ _ | .sneReg _ _ | .skp _ | .sknp _ | .ldVxK _ => true
  | .cls | .drw _ _ _ | .rnd _ _ => false
  | .ldImm _ _ | .addImm _ _ | .ldReg _ _ | .orReg _ _ | .andReg _ _ | .xorReg _ _ => false
  | .addReg _ _ | .subReg _ _ | .shr _ _ | .subnReg _ _ | .shl _ _ => false
  | .ldI _ | .addI _ | .ldF _ | .ldB _ | .storeRegs _ | .loadRegs _ => false
  | .ldVxDt _ | .ldDtVx _ | .ldStVx _ => false

/-- The fatal error instruction i raises in state s, if any: the conditions of 60_exceptions.md R210 for
the instructions of R211; every other instruction raises nothing once fetched. CALL overflows above
STACK_DEPTH too, where no run comes (log 12): a statement over `causeOf` has SP in its range as a premise. -/
def causeOf (s : State) : Instr → Option Cause
  | .ret => if s.sp = 0 then some .stackUnderflow else none
  | .call _ => if s.sp = s.cfg.stackDepth then some .stackOverflow else none
  | .drw _ _ n => if s.blockResolves n.toNat then none else some .memoryOutOfBounds
  | .ldB _ => if s.blockResolves 3 then none else some .memoryOutOfBounds
  | .storeRegs x => if s.blockResolves (x.toNat + 1) then none else some .memoryOutOfBounds
  | .loadRegs x => if s.blockResolves (x.toNat + 1) then none else some .memoryOutOfBounds
  | .cls | .jp _ | .jpV0 _ | .seImm _ _ | .sneImm _ _ | .seReg _ _ | .sneReg _ _ => none
  | .ldImm _ _ | .addImm _ _ | .ldReg _ _ | .orReg _ _ | .andReg _ _ | .xorReg _ _ => none
  | .addReg _ _ | .subReg _ _ | .shr _ _ | .subnReg _ _ | .shl _ _ | .rnd _ _ => none
  | .ldI _ | .addI _ | .ldF _ | .skp _ | .sknp _ => none
  | .ldVxDt _ | .ldVxK _ | .ldDtVx _ | .ldStVx _ => none

/-- A fault record says what is true of the state it was recorded in (10_state.md R33, 60_exceptions.md
R210, R213, R216): pc is the faulting address, the word is the one the fetch gives (none where the fetch
itself failed), and the cause's condition still holds. For MemoryOutOfBounds the address is the lowest one
out of range: of the two the fetch reads, or of those from I on that the instruction accesses. -/
def State.recordTrue (s : State) (r : FaultRecord) : Prop :=
  r.pc = s.pc ∧
  match r.cause with
  | .stackOverflow =>
    ∃ nnn, s.fetch = .ok (encode (.call nnn)) ∧ r.word = some (encode (.call nnn)) ∧
      causeOf s (.call nnn) = some .stackOverflow ∧ r.addr = none
  | .stackUnderflow =>
    s.fetch = .ok (encode .ret) ∧ r.word = some (encode .ret) ∧
      causeOf s .ret = some .stackUnderflow ∧ r.addr = none
  | .unknownOpcode =>
    ∃ w, s.fetch = .ok w ∧ r.word = some w ∧ decode w = .error (.unknownOpcode w) ∧
      s.cfg.unknownPolicy = .fatal ∧ r.addr = none
  | .memoryOutOfBounds =>
    (s.cfg.oobPolicy = .fatal ∧ 4095 ≤ s.pc.toNat ∧ r.word = none ∧ r.addr = some (max s.pc.toNat 4096)) ∨
    ∃ w i, s.fetch = .ok w ∧ decode w = .ok i ∧ causeOf s i = some .memoryOutOfBounds ∧
      r.word = some w ∧ r.addr = some (max s.index.toNat 4096)
  | .romTooLarge => s.pc = 0x200 ∧ r.word = none ∧ ∃ addr, 4096 < addr ∧ r.addr = some addr

/-- The run state tells the truth about memory: in AwaitKey(x) pc holds the address of an FX0A with
register x (10_state.md R23, 44_keys_timers.md R196), and a fault record is true. -/
def State.runTrue (s : State) : Prop :=
  match s.run with
  | .running => True
  | .awaitKey x => s.fetch = .ok (encode (.ldVxK x))
  | .faulted r => s.recordTrue r

/-- A step from s raised the fatal error recorded in r (60_exceptions.md R213): t is s but for the run
state, pc still at the faulting instruction, and no signals (log 6). -/
structure FaultsWith (r : FaultRecord) (s t : State) : Prop where
  run : t.run = .faulted r
  pc : t.pc = s.pc
  signals : t.signals = Signals.none
  frame : Frame { run := true } s t

/-- An instruction executed that moves pc to the next word, raises no signal and writes only `w`. -/
structure Completes (w : Writes) (s t : State) : Prop where
  pc : t.pc = s.pc + 2
  signals : t.signals = Signals.none
  frame : Frame w s t

/-- Every word that matches (mask, match) is the instruction `f` reads from it (30_encoding.md R76). -/
def EncodedAs (mask word : Word) (f : Word → Instr) : Prop :=
  ∀ w : Word, w &&& mask = word → decode w = .ok (f w)

/-- The pixel at row py and column px that DXYN's sprite turns over (43_display.md R172, R173): bit 7 of
a sprite byte is at column x0, sprite row r at row y0 + r, and nothing wraps. The sprite's row r is the
byte at I + r, resolved (20_memory.md R53). -/
def State.spritePixel (s : State) (x y : RegIdx) (n : BitVec 4) (py px : Nat) : Bool :=
  let x0 := (s.v x).toNat % 64
  let y0 := (s.v y).toNat % 32
  decide (y0 ≤ py ∧ py < y0 + n.toNat ∧ x0 ≤ px ∧ px < x0 + 8) &&
    (s.byteAt ((s.index.toNat + (py - y0)) % 4096)).getLsbD (7 - (px - x0))

/-- The state after instruction i. -/
def State.after (i : Instr) (s : State) : State :=
  match exec i s with
  | .next t => t
  | .fault _ => s
  | .refused _ => s

/-- Instruction i reads or writes a timer: FX07, FX15 and FX18 only (10_state.md R39). -/
def accessesTimers (i : Instr) : Prop :=
  ∃ x, i = .ldVxDt x ∨ i = .ldDtVx x ∨ i = .ldStVx x

end Sys2Proof.Machine
end

