-- ==== Sys2Proof/Certificates/Slice0/Obligations.lean ====
section
/-! DEFINITION. The statements for the provers. Each docstring names the rules of spec/ it formalises.
Where a rule is marked as the spec's own decision (D n of 92_eei_decisions.md) the docstring says so. -/

open Sys2Proof Sys2Proof.Machine

/-! ### Encoding -/

/-- 30_encoding.md R70 to R76: no bit of an operand is lost between encoder and decoder. -/
def Obligations.DecodeOfEncodeIsTheInstruction : Prop :=
  ∀ i : Instr, decode (encode i) = .ok i

/-- 30_encoding.md R75, R79: an instruction has one word, so the word a fault record names is the word
that was fetched. -/
def Obligations.EncodeOfADecodedWordIsTheWord : Prop :=
  ∀ (w : Word) (i : Instr), decode w = .ok i → encode i = w

/-- 30_encoding.md R75 (decision D10), R76 (D28): for each row of the opcode map, a word decodes to an
instruction of that row exactly when it matches the row under its mask. -/
def Obligations.AWordSelectsExactlyTheRowItMatches : Prop :=
  ∀ (w : Word) (r : Word × Word), r ∈ opcodeMap →
    (w &&& r.1 = r.2 ↔ ∃ i, decode w = .ok i ∧ i.row = r)

/-- 30_encoding.md R77: the unknown words are exactly the classes the rule lists, and the decoder names
the word it rejects. -/
def Obligations.UnknownWordsAreTheListedClasses : Prop :=
  ∀ w : Word,
    ((∃ e, decode w = .error e) ↔
      (w.toNat < 0x1000 ∧ w ≠ 0x00E0 ∧ w ≠ 0x00EE) ∨
      (w.toNat / 0x1000 = 0x5 ∧ w.toNat % 16 ≠ 0) ∨
      (w.toNat / 0x1000 = 0x8 ∧ w.toNat % 16 ∈ [0x8, 0x9, 0xA, 0xB, 0xC, 0xD, 0xF]) ∨
      (w.toNat / 0x1000 = 0x9 ∧ w.toNat % 16 ≠ 0) ∨
      (w.toNat / 0x1000 = 0xE ∧ w.toNat % 256 ∉ [0x9E, 0xA1]) ∨
      (w.toNat / 0x1000 = 0xF ∧
        w.toNat % 256 ∉ [0x07, 0x0A, 0x15, 0x18, 0x1E, 0x29, 0x33, 0x55, 0x65])) ∧
    ∀ e, decode w = .error e → e = .unknownOpcode w

/-- 30_encoding.md R70: a decoder takes exactly 2 bytes, and they are the instruction's bytes, the high
byte first. -/
def Obligations.TheDecoderTakesExactlyTwoBytes : Prop :=
  ∀ (bytes rest : List Byte) (i : Instr),
    decodeBytes bytes = .ok (i, rest) ↔ bytes = encodeBytes i ++ rest

/-- 30_encoding.md R76, 95_test_vectors.md: one word of each family. -/
def Obligations.SampleWordsDecodeAsTheOpcodeMapSays : Prop :=
  decode 0x00E0 = .ok .cls ∧ decode 0x00EE = .ok .ret ∧ decode 0x1ABC = .ok (.jp 0xABC) ∧
  decode 0x352A = .ok (.seImm 0x5 0x2A) ∧ decode 0x6A7B = .ok (.ldImm 0xA 0x7B) ∧
  decode 0x8127 = .ok (.subnReg 0x1 0x2) ∧ decode 0xD125 = .ok (.drw 0x1 0x2 0x5) ∧
  decode 0xE49E = .ok (.skp 0x4) ∧ decode 0xF355 = .ok (.storeRegs 0x3) ∧
  decode 0x5121 = .error (.unknownOpcode 0x5121) ∧ decode 0x01E0 = .error (.unknownOpcode 0x01E0)

/-! ### The step -/

/-- 30_encoding.md R72, R73, R83; 20_memory.md R53 (D6), R54 (D1): a Running core whose two bytes at pc
and pc + 1, the high byte at pc, decode to i makes the step exec gives i. Under Wrap the addresses wrap
modulo 4096; the byte addresses are in bounds otherwise. Nothing is added around exec (log 8). -/
def Obligations.AStepRunsTheDecodedInstruction : Prop :=
  ∀ (s : State) (i : Instr), s.run = .running →
    (s.pc.toNat + 1 < 4096 ∨ s.cfg.oobPolicy = .wrap) →
    decode (wordOfBytes (s.byteAt (s.pc.toNat % 4096)) (s.byteAt ((s.pc.toNat + 1) % 4096))) = .ok i →
    step s = exec i s

/-- 30_encoding.md R72 (D6): under OOB_POLICY = Fatal a fetch at 4095 or above faults, naming the first
address out of range and no word (10_state.md R33). The absent signals are log 6. -/
def Obligations.AFetchOutOfRangeFaults : Prop :=
  ∀ s : State, s.run = .running → s.cfg.oobPolicy = .fatal → 4095 ≤ s.pc.toNat →
    ∃ t, step s = .next t ∧
      FaultsWith ⟨.memoryOutOfBounds, s.pc, none, some (max s.pc.toNat 4096)⟩ s t

/-- 30_encoding.md R78, 60_exceptions.md R217 (D5), R213 (D12): an unknown word goes by UNKNOWN_POLICY. That
the signals are absent after the fault (`FaultsWith`) is log 6. -/
def Obligations.AnUnknownWordGoesByThePolicy : Prop :=
  ∀ (s : State) (w : Word) (e : DecodeError), s.run = .running → s.fetch = .ok w →
    decode w = .error e →
    (s.cfg.unknownPolicy = .fatal →
      ∃ t, step s = .next t ∧ FaultsWith ⟨.unknownOpcode, s.pc, some w, none⟩ s t) ∧
    (s.cfg.unknownPolicy = .noOp →
      ∃ t, step s = .next t ∧ t.pc = s.pc + 2 ∧ t.signals = ⟨false, some ⟨s.pc, w⟩, false⟩ ∧
        Frame {} s t)

/-- 60_exceptions.md R214 (D12): a step of a Faulted core changes nothing. -/
def Obligations.AStepOfAFaultedCoreChangesNothing : Prop :=
  ∀ (s : State) (r : FaultRecord), s.run = .faulted r → step s = .next s ∧ s.stepResult = .fatal r

/-- log 7, from 60_exceptions.md R211, R213 (D12) and R218: every step of every state answers a next
state; the model never stops. -/
def Obligations.EveryStepAnswersANextState : Prop :=
  ∀ s : State, ∃ t, step s = .next t

/-- 60_exceptions.md R210, R211: which instructions raise which error, and on exactly which condition;
every other instruction raises nothing. That DXYN's condition counts clipped rows is D20. SP is in its range
(`State.Inv`; log 12 for the states outside). -/
def Obligations.AnInstructionRaisesExactlyItsOwnError : Prop :=
  ∀ (i : Instr) (s : State), s.safe = true → s.sp ≤ s.cfg.stackDepth →
    ∃ t, exec i s = .next t ∧
      match causeOf s i with
      | none => t.safe = true
      | some c => ∃ r, t.run = .faulted r ∧ r.cause = c

/-- 60_exceptions.md R213 (D12): an instruction that faults discards every write, the pc advance too,
and records its own address and word. The absent signals are log 6. -/
def Obligations.AFaultingInstructionDiscardsEveryWrite : Prop :=
  ∀ (i : Instr) (s t : State), s.safe = true → exec i s = .next t → t.safe = false →
    ∃ r, FaultsWith r s t ∧ r.pc = s.pc ∧ r.word = some (encode i)

/-- 60_exceptions.md R210, R213, R216 (D12, D14): a step that faults changes the run state only, and its
record is true of the state it faulted in: the address, the word and the cause, for a data access the
instruction that makes it and the lowest address out of range. SP is in its range (`State.Inv`; log 12 for
the states outside); the absent signals are log 6. -/
def Obligations.AFaultingStepIsPrecise : Prop :=
  ∀ s t : State, s.safe = true → s.sp ≤ s.cfg.stackDepth → step s = .next t → t.safe = false →
    ∃ r, FaultsWith r s t ∧ s.recordTrue r

/-- 10_state.md R39: the access matrix. What an instruction that does not fault changes lies in its row
of the matrix; memory through the addresses the instruction stores to (20_memory.md R66). Where the row's pc
column is blank, pc makes the advance of every executed instruction only (30_encoding.md R73). -/
def Obligations.EveryInstructionKeepsToTheAccessMatrix : Prop :=
  ∀ (i : Instr) (s t : State), exec i s = .next t → t.safe = true → s.safe = true →
    Frame (writesOf s i) s t ∧ (writesPc i = false → t.pc = s.pc + 2)

/-- 00_scope.md R5, 10_state.md R31: no step changes the Config record or a key latch. -/
def Obligations.NoStepChangesConfigOrKeys : Prop :=
  ∀ s t : State, step s = .next t → t.cfg = s.cfg ∧ t.keys = s.keys

/-- 43_display.md R175 (D21): `draw` is signalled by exactly the steps that executed 00E0 or DXYN. -/
def Obligations.DrawIsSignalledExactlyByClearAndDraw : Prop :=
  ∀ s t : State, s.safe = true → step s = .next t →
    (t.signals.draw = true ↔
      t.safe = true ∧ s.run = .running ∧
      ∃ w, s.fetch = .ok w ∧ (decode w = .ok .cls ∨ ∃ x y n, decode w = .ok (.drw x y n)))

/-! ### Invariants -/

/-- 10_state.md R20, R26, 20_memory.md R50, R53: every step keeps a well-formed state well-formed. That memory
is canonical and the signals fit the run state is the model's own (log 9, log 6). -/
def Obligations.EveryStepKeepsTheStateWellFormed : Prop :=
  ∀ s t : State, s.Inv → step s = .next t → t.Inv

/-- 10_state.md R40: every transaction does, a `construct` with a Config the spec admits. -/
def Obligations.EveryTransactionKeepsTheStateWellFormed : Prop :=
  ∀ (tr : Transaction) (s t : State) (r : Response), s.Inv →
    (∀ cfg rom, tr = .construct cfg rom → cfg.wf = true) →
    transact tr s = .next (t, r) → t.Inv

/-- 10_state.md R23, R33, 44_keys_timers.md R196, 60_exceptions.md R213 (D12, D15): in AwaitKey(x) pc
holds the address of an FX0A with register x, and in Faulted(rec) the record is true of the state; every
transaction keeps it so, with SP in its range (10_state.md R26). -/
def Obligations.TheRunStateTellsTheTruth : Prop :=
  ∀ (tr : Transaction) (s t : State) (r : Response), s.sp ≤ s.cfg.stackDepth → s.runTrue →
    transact tr s = .next (t, r) → t.sp ≤ t.cfg.stackDepth ∧ t.runTrue

/-- 10_state.md R38: the reset state (log 2) is well-formed and its run state tells the truth. -/
def Obligations.TheResetStateIsWellFormed : Prop :=
  State.reset.Inv ∧ State.reset.runTrue

/-- 60_exceptions.md R214, R215 (D12): only `construct` leaves Faulted. -/
def Obligations.OnlyConstructLeavesFaulted : Prop :=
  ∀ (tr : Transaction) (s t : State) (resp : Response) (r : FaultRecord), s.run = .faulted r →
    (∀ cfg rom, tr ≠ .construct cfg rom) → transact tr s = .next (t, resp) → t.run = .faulted r

/-! ### Control transfer and skips -/

/-- 40_control.md R101, R103. -/
def Obligations.JumpsGoToTheirTargets : Prop :=
  EncodedAs 0xF000 0x1000 (fun w => .jp (w.extractLsb' 0 12)) ∧
  EncodedAs 0xF000 0xB000 (fun w => .jpV0 (w.extractLsb' 0 12)) ∧
  ∀ (s : State) (nnn : Addr12),
    (∃ t, exec (.jp nnn) s = .next t ∧ t.pc.toNat = nnn.toNat ∧ t.signals = Signals.none ∧
      Frame {} s t) ∧
    ∃ t, exec (.jpV0 nnn) s = .next t ∧
      t.pc.toNat = nnn.toNat +
        (if s.cfg.jumpOffset = .v0 then s.v 0 else s.v (nnn.extractLsb' 8 4)).toNat ∧
      t.signals = Signals.none ∧ Frame {} s t

/-- 40_control.md R102, 10_state.md R27: the pushed value is a + 2. On a well-formed stack; the fault is
R213's (D12), and that the signals are absent after it is log 6. -/
def Obligations.CallPushesTheReturnAddress : Prop :=
  EncodedAs 0xF000 0x2000 (fun w => .call (w.extractLsb' 0 12)) ∧
  ∀ (s : State) (nnn : Addr12), s.stack.length = s.cfg.stackDepth →
    (s.sp < s.cfg.stackDepth →
      ∃ t, exec (.call nnn) s = .next t ∧ t.pc.toNat = nnn.toNat ∧ t.sp = s.sp + 1 ∧
        (∀ k, t.stackEntry k = if k = s.sp then s.pc + 2 else s.stackEntry k) ∧
        t.signals = Signals.none ∧ Frame { stack := true } s t) ∧
    (s.sp = s.cfg.stackDepth →
      ∃ t, exec (.call nnn) s = .next t ∧
        FaultsWith ⟨.stackOverflow, s.pc, some (encode (.call nnn)), none⟩ s t)

/-- 40_control.md R100, 10_state.md R28; the fault is R213's (D12), and that the signals are absent after it
is log 6. In a state whose stack list is shorter than SP, which no run reaches, the entry reads as log 12
says. -/
def Obligations.ReturnGoesToThePoppedAddress : Prop :=
  EncodedAs 0xFFFF 0x00EE (fun _ => .ret) ∧
  ∀ s : State,
    (0 < s.sp →
      ∃ t, exec .ret s = .next t ∧ t.pc = s.stackEntry (s.sp - 1) ∧ t.sp = s.sp - 1 ∧
        t.stack = s.stack ∧ t.signals = Signals.none ∧ Frame { stack := true } s t) ∧
    (s.sp = 0 →
      ∃ t, exec .ret s = .next t ∧ FaultsWith ⟨.stackUnderflow, s.pc, some 0x00EE, none⟩ s t)

/-- 40_control.md R100, R102: a call followed at once by a return comes back to the word after the call
with the stack depth as before. -/
def Obligations.CallThenReturnComesBack : Prop :=
  ∀ (s : State) (nnn : Addr12), s.stack.length = s.cfg.stackDepth → s.sp < s.cfg.stackDepth →
    ∃ t u, exec (.call nnn) s = .next t ∧ exec .ret t = .next u ∧ u.pc = s.pc + 2 ∧ u.sp = s.sp ∧
      ∀ k, k < s.sp → u.stackEntry k = s.stackEntry k

/-- 40_control.md R104, R105. -/
def Obligations.ImmediateSkipsCompareTheRegister : Prop :=
  EncodedAs 0xF000 0x3000 (fun w => .seImm (w.extractLsb' 8 4) (w.extractLsb' 0 8)) ∧
  EncodedAs 0xF000 0x4000 (fun w => .sneImm (w.extractLsb' 8 4) (w.extractLsb' 0 8)) ∧
  ∀ (s : State) (x : RegIdx) (nn : Byte),
    (∃ t, exec (.seImm x nn) s = .next t ∧ t.pc = s.pc + (if s.v x = nn then 4 else 2) ∧
      t.signals = Signals.none ∧ Frame {} s t) ∧
    ∃ t, exec (.sneImm x nn) s = .next t ∧ t.pc = s.pc + (if s.v x = nn then 2 else 4) ∧
      t.signals = Signals.none ∧ Frame {} s t

/-- 40_control.md R106, R107 (D10 fixes the zero nibble). -/
def Obligations.RegisterSkipsCompareTheRegisters : Prop :=
  EncodedAs 0xF00F 0x5000 (fun w => .seReg (w.extractLsb' 8 4) (w.extractLsb' 4 4)) ∧
  EncodedAs 0xF00F 0x9000 (fun w => .sneReg (w.extractLsb' 8 4) (w.extractLsb' 4 4)) ∧
  ∀ (s : State) (x y : RegIdx),
    (∃ t, exec (.seReg x y) s = .next t ∧ t.pc = s.pc + (if s.v x = s.v y then 4 else 2) ∧
      t.signals = Signals.none ∧ Frame {} s t) ∧
    ∃ t, exec (.sneReg x y) s = .next t ∧ t.pc = s.pc + (if s.v x = s.v y then 2 else 4) ∧
      t.signals = Signals.none ∧ Frame {} s t

/-! ### Loads and ALU -/

/-- 41_alu.md R120, R121: VF is written as an ordinary register only. -/
def Obligations.ImmediateLoadAndAddWriteOnlyVx : Prop :=
  EncodedAs 0xF000 0x6000 (fun w => .ldImm (w.extractLsb' 8 4) (w.extractLsb' 0 8)) ∧
  EncodedAs 0xF000 0x7000 (fun w => .addImm (w.extractLsb' 8 4) (w.extractLsb' 0 8)) ∧
  ∀ (s : State) (x : RegIdx) (nn : Byte),
    (∃ t, exec (.ldImm x nn) s = .next t ∧ t.v x = nn ∧
      Completes { reg := fun j => j = x } s t) ∧
    ∃ t, exec (.addImm x nn) s = .next t ∧ t.v x = s.v x + nn ∧
      Completes { reg := fun j => j = x } s t

/-- 41_alu.md R121, R131, 95_test_vectors.md S1: 256 additions of 1 give Vx back, and every register. -/
def Obligations.AddingOne256TimesRestoresTheRegister : Prop :=
  ∀ (s : State) (x j : RegIdx), ((State.after (.addImm x 1))^[256] s).v j = s.v j

/-- 41_alu.md R122 (D28), R123, R124, R125 (D19): no flag is written. -/
def Obligations.AssignAndLogicWriteOnlyVx : Prop :=
  EncodedAs 0xF00F 0x8000 (fun w => .ldReg (w.extractLsb' 8 4) (w.extractLsb' 4 4)) ∧
  EncodedAs 0xF00F 0x8001 (fun w => .orReg (w.extractLsb' 8 4) (w.extractLsb' 4 4)) ∧
  EncodedAs 0xF00F 0x8002 (fun w => .andReg (w.extractLsb' 8 4) (w.extractLsb' 4 4)) ∧
  EncodedAs 0xF00F 0x8003 (fun w => .xorReg (w.extractLsb' 8 4) (w.extractLsb' 4 4)) ∧
  ∀ (s : State) (x y : RegIdx),
    (∃ t, exec (.ldReg x y) s = .next t ∧ t.v x = s.v y ∧ Completes { reg := fun j => j = x } s t) ∧
    (∃ t, exec (.orReg x y) s = .next t ∧ t.v x = s.v x ||| s.v y ∧
      Completes { reg := fun j => j = x } s t) ∧
    (∃ t, exec (.andReg x y) s = .next t ∧ t.v x = s.v x &&& s.v y ∧
      Completes { reg := fun j => j = x } s t) ∧
    ∃ t, exec (.xorReg x y) s = .next t ∧ t.v x = s.v x ^^^ s.v y ∧
      Completes { reg := fun j => j = x } s t

/-- 41_alu.md R126 (and R133 for x = 0xF): the sum modulo 256, and VF, written last, the carry. -/
def Obligations.AddSetsTheCarryLast : Prop :=
  EncodedAs 0xF00F 0x8004 (fun w => .addReg (w.extractLsb' 8 4) (w.extractLsb' 4 4)) ∧
  ∀ (s : State) (x y : RegIdx), ∃ t, exec (.addReg x y) s = .next t ∧
    (∀ j, t.v j =
      if j = 0xF then (if 255 < (s.v x).toNat + (s.v y).toNat then 1 else 0)
      else if j = x then s.v x + s.v y else s.v j) ∧
    Completes { reg := fun j => j = x || j = 0xF } s t

/-- 41_alu.md R127, R129 (and R133 for x = 0xF): the difference modulo 256, and VF, written last, NOT
borrow. -/
def Obligations.SubtractionsSetNotBorrowLast : Prop :=
  EncodedAs 0xF00F 0x8005 (fun w => .subReg (w.extractLsb' 8 4) (w.extractLsb' 4 4)) ∧
  EncodedAs 0xF00F 0x8007 (fun w => .subnReg (w.extractLsb' 8 4) (w.extractLsb' 4 4)) ∧
  ∀ (s : State) (x y : RegIdx),
    (∃ t, exec (.subReg x y) s = .next t ∧
      (∀ j, t.v j =
        if j = 0xF then (if (s.v y).toNat ≤ (s.v x).toNat then 1 else 0)
        else if j = x then s.v x - s.v y else s.v j) ∧
      Completes { reg := fun j => j = x || j = 0xF } s t) ∧
    ∃ t, exec (.subnReg x y) s = .next t ∧
      (∀ j, t.v j =
        if j = 0xF then (if (s.v x).toNat ≤ (s.v y).toNat then 1 else 0)
        else if j = x then s.v y - s.v x else s.v j) ∧
      Completes { reg := fun j => j = x || j = 0xF } s t

/-- 41_alu.md R128, R130 (and R133 for x = 0xF): the source by SHIFT_SRC, shifted by one, and VF, written
last, the bit shifted out. -/
def Obligations.ShiftsSetTheBitShiftedOutLast : Prop :=
  EncodedAs 0xF00F 0x8006 (fun w => .shr (w.extractLsb' 8 4) (w.extractLsb' 4 4)) ∧
  EncodedAs 0xF00F 0x800E (fun w => .shl (w.extractLsb' 8 4) (w.extractLsb' 4 4)) ∧
  ∀ (s : State) (x y : RegIdx) (src : Byte),
    src = (if s.cfg.shiftSrc = .vx then s.v x else s.v y) →
    (∃ t, exec (.shr x y) s = .next t ∧
      (∀ j, t.v j =
        if j = 0xF then src &&& 1 else if j = x then src >>> 1 else s.v j) ∧
      Completes { reg := fun j => j = x || j = 0xF } s t) ∧
    ∃ t, exec (.shl x y) s = .next t ∧
      (∀ j, t.v j =
        if j = 0xF then src >>> 7 else if j = x then src <<< 1 else s.v j) ∧
      Completes { reg := fun j => j = x || j = 0xF } s t

/-- 41_alu.md R137 (D26): Vx is a drawn byte masked by nn, whatever the byte (log 3), and the draw is not
used again. -/
def Obligations.RandomIsADrawMaskedByTheImmediate : Prop :=
  EncodedAs 0xF000 0xC000 (fun w => .rnd (w.extractLsb' 8 4) (w.extractLsb' 0 8)) ∧
  ∀ (s : State) (x : RegIdx) (nn : Byte),
    ∃ t, exec (.rnd x nn) s = .next t ∧ t.v x = Config.randomByte s.draws &&& nn ∧
      t.draws = s.draws + 1 ∧ Completes { reg := fun j => j = x, draws := true } s t

/-! ### Index register and memory -/

/-- 42_index_memory.md R150. -/
def Obligations.LoadIndexZeroExtends : Prop :=
  EncodedAs 0xF000 0xA000 (fun w => .ldI (w.extractLsb' 0 12)) ∧
  ∀ (s : State) (nnn : Addr12),
    ∃ t, exec (.ldI nnn) s = .next t ∧ t.index.toNat = nnn.toNat ∧ Completes { index := true } s t

/-- 42_index_memory.md R152 (D17): unmasked. -/
def Obligations.GlyphAddressIsFiveTimesTheDigit : Prop :=
  EncodedAs 0xF0FF 0xF029 (fun w => .ldF (w.extractLsb' 8 4)) ∧
  ∀ (s : State) (x : RegIdx),
    ∃ t, exec (.ldF x) s = .next t ∧ t.index.toNat = 0x050 + 5 * (s.v x).toNat ∧
      Completes { index := true } s t

/-- 42_index_memory.md R151 (D8): I wraps modulo 2^16; VF is written only under FX1E_SETS_VF, last. -/
def Obligations.AddIndexWrapsAndFlagsByTheQuirk : Prop :=
  EncodedAs 0xF0FF 0xF01E (fun w => .addI (w.extractLsb' 8 4)) ∧
  ∀ (s : State) (x : RegIdx),
    ∃ t, exec (.addI x) s = .next t ∧
      t.index.toNat = (s.index.toNat + (s.v x).toNat) % 65536 ∧
      (∀ j, t.v j =
        if s.cfg.fx1eSetsVf = true ∧ j = 0xF then
          (if 0x0FFF < s.index.toNat + (s.v x).toNat then 1 else 0)
        else s.v j) ∧
      Completes { index := true, reg := fun j => s.cfg.fx1eSetsVf && decide (j = 0xF) } s t

/-- 42_index_memory.md R153 (D18): hundreds, tens and ones at I, I + 1 and I + 2, resolved (20_memory.md
R53); I and every other byte are unchanged. -/
def Obligations.DecimalDigitsAreStored : Prop :=
  EncodedAs 0xF0FF 0xF033 (fun w => .ldB (w.extractLsb' 8 4)) ∧
  ∀ (s : State) (x : RegIdx), s.mem.wf s.cfg.font → s.blockResolves 3 = true →
    ∃ t, exec (.ldB x) s = .next t ∧
      (t.byteAt (s.index.toNat % 4096)).toNat = (s.v x).toNat / 100 ∧
      (t.byteAt ((s.index.toNat + 1) % 4096)).toNat = (s.v x).toNat / 10 % 10 ∧
      (t.byteAt ((s.index.toNat + 2) % 4096)).toNat = (s.v x).toNat % 10 ∧
      Completes { byte := s.storesTo 3 } s t

/-- 42_index_memory.md R154 (D18): byte k of the block is V[k], at I + k resolved; I and every other byte
are unchanged. -/
def Obligations.StoreRegistersStoresTheBlock : Prop :=
  EncodedAs 0xF0FF 0xF055 (fun w => .storeRegs (w.extractLsb' 8 4)) ∧
  ∀ (s : State) (x : RegIdx), s.mem.wf s.cfg.font → s.blockResolves (x.toNat + 1) = true →
    ∃ t, exec (.storeRegs x) s = .next t ∧
      (∀ k : RegIdx, k ≤ x → t.byteAt ((s.index.toNat + k.toNat) % 4096) = s.v k) ∧
      Completes { byte := s.storesTo (x.toNat + 1) } s t

/-- 42_index_memory.md R155 (D18): V[k] is the byte at I + k, resolved; I, the registers above Vx and all
of memory are unchanged. -/
def Obligations.LoadRegistersLoadsTheBlock : Prop :=
  EncodedAs 0xF0FF 0xF065 (fun w => .loadRegs (w.extractLsb' 8 4)) ∧
  ∀ (s : State) (x : RegIdx), s.blockResolves (x.toNat + 1) = true →
    ∃ t, exec (.loadRegs x) s = .next t ∧
      (∀ k : RegIdx, k ≤ x → t.v k = s.byteAt ((s.index.toNat + k.toNat) % 4096)) ∧
      Completes { reg := fun j => decide (j ≤ x) } s t

/-- 42_index_memory.md R154, R155, 95_test_vectors.md S7: a block stored and loaded again, whatever the
registers held in between, gives back the registers' values. -/
def Obligations.StoreThenLoadGivesTheRegistersBack : Prop :=
  ∀ (s t u : State) (x : RegIdx), s.mem.wf s.cfg.font → s.blockResolves (x.toNat + 1) = true →
    exec (.storeRegs x) s = .next t →
    u.mem = t.mem → u.index = t.index → u.cfg = t.cfg →
    ∃ w, exec (.loadRegs x) u = .next w ∧ ∀ k : RegIdx, k ≤ x → w.v k = s.v k

/-- 20_memory.md R63 (D23): a word that FX55 stored where the next fetch reads is the word that fetch
gives. -/
def Obligations.AStoredWordIsFetchedNext : Prop :=
  ∀ (s t : State) (x k : RegIdx), s.mem.wf s.cfg.font → s.blockResolves (x.toNat + 1) = true →
    exec (.storeRegs x) s = .next t → k < x →
    (t.pc.toNat + 1 < 4096 ∨ s.cfg.oobPolicy = .wrap) →
    t.pc.toNat % 4096 = (s.index.toNat + k.toNat) % 4096 →
    t.fetch = .ok (wordOfBytes (s.v k) (s.v (k + 1)))

/-- 42_index_memory.md R153, R154, R155, 43_display.md R172, 60_exceptions.md R213, R216 (D12, D14): under
OOB_POLICY = Fatal a block that leaves `mem` faults with the lowest address out of range. The absent signals
are log 6. -/
def Obligations.ABlockOutOfRangeFaultsAtTheLowestAddress : Prop :=
  ∀ (s : State) (x y : RegIdx) (n : BitVec 4), s.cfg.oobPolicy = .fatal →
    (4096 < s.index.toNat + 3 → ∃ t, exec (.ldB x) s = .next t ∧
      FaultsWith ⟨.memoryOutOfBounds, s.pc, some (encode (.ldB x)), some (max s.index.toNat 4096)⟩ s t) ∧
    (4096 < s.index.toNat + (x.toNat + 1) → ∃ t, exec (.storeRegs x) s = .next t ∧
      FaultsWith ⟨.memoryOutOfBounds, s.pc, some (encode (.storeRegs x)), some (max s.index.toNat 4096)⟩
        s t) ∧
    (4096 < s.index.toNat + (x.toNat + 1) → ∃ t, exec (.loadRegs x) s = .next t ∧
      FaultsWith ⟨.memoryOutOfBounds, s.pc, some (encode (.loadRegs x)), some (max s.index.toNat 4096)⟩
        s t) ∧
    (4096 < s.index.toNat + n.toNat → 0 < n.toNat → ∃ t, exec (.drw x y n) s = .next t ∧
      FaultsWith ⟨.memoryOutOfBounds, s.pc, some (encode (.drw x y n)), some (max s.index.toNat 4096)⟩
        s t)

/-! ### Display -/

/-- 43_display.md R171 (D21), R174: every pixel is 0, VF is unchanged, and draw is signalled. -/
def Obligations.ClearTurnsEveryPixelOff : Prop :=
  EncodedAs 0xFFFF 0x00E0 (fun _ => .cls) ∧
  ∀ s : State, ∃ t, exec .cls s = .next t ∧ (∀ y x, t.fb.pixel y x = false) ∧
    t.pc = s.pc + 2 ∧ t.signals = ⟨true, none, false⟩ ∧ Frame { fb := true } s t

/-- 43_display.md R172, R173, R174 (D20): each pixel the clipped sprite covers turns over, no other pixel
changes, and VF is 1 exactly if one of them was set before. -/
def Obligations.DrawXorsTheClippedSprite : Prop :=
  EncodedAs 0xF000 0xD000
    (fun w => .drw (w.extractLsb' 8 4) (w.extractLsb' 4 4) (w.extractLsb' 0 4)) ∧
  ∀ (s : State) (x y : RegIdx) (n : BitVec 4), s.blockResolves n.toNat = true →
    ∃ t, exec (.drw x y n) s = .next t ∧
      (∀ py px, py < 32 → px < 64 →
        t.fb.pixel py px = (s.fb.pixel py px ^^ s.spritePixel x y n py px)) ∧
      (t.v 0xF = 0 ∨ t.v 0xF = 1) ∧
      (t.v 0xF = 1 ↔ ∃ py px, py < 32 ∧ px < 64 ∧ s.spritePixel x y n py px = true ∧
        s.fb.pixel py px = true) ∧
      t.pc = s.pc + 2 ∧ t.signals = ⟨true, none, false⟩ ∧
      Frame { reg := fun j => j = 0xF, fb := true } s t

/-- 43_display.md R172 (D20), 95_test_vectors.md S9: the same sprite drawn twice at the same place gives
the screen back; on a clear screen the second draw collides exactly if the sprite shows at all. With
x or y = 0xF the first draw moves the place (R172), so the two draws are not at the same place. -/
def Obligations.DrawingTwiceGivesTheScreenBack : Prop :=
  ∀ (s : State) (x y : RegIdx) (n : BitVec 4), x ≠ 0xF → y ≠ 0xF → s.blockResolves n.toNat = true →
    ∃ t u, exec (.drw x y n) s = .next t ∧ exec (.drw x y n) t = .next u ∧ u.fb = s.fb ∧
      (s.fb = Framebuffer.clear →
        (u.v 0xF = 1 ↔ ∃ py px, py < 32 ∧ px < 64 ∧ s.spritePixel x y n py px = true))

/-! ### Keys and timers -/

/-- 44_keys_timers.md R190, R191, R192 (D16): the key is the register's low nibble. -/
def Obligations.KeySkipsTestTheLowNibblesKey : Prop :=
  EncodedAs 0xF0FF 0xE09E (fun w => .skp (w.extractLsb' 8 4)) ∧
  EncodedAs 0xF0FF 0xE0A1 (fun w => .sknp (w.extractLsb' 8 4)) ∧
  ∀ (s : State) (x : RegIdx) (k : KeyIdx), k.toNat = (s.v x).toNat % 16 →
    (∃ t, exec (.skp x) s = .next t ∧ t.pc = s.pc + (if s.key k = true then 4 else 2) ∧
      t.signals = Signals.none ∧ Frame {} s t) ∧
    ∃ t, exec (.sknp x) s = .next t ∧ t.pc = s.pc + (if s.key k = true then 2 else 4) ∧
      t.signals = Signals.none ∧ Frame {} s t

/-- 44_keys_timers.md R193, R194, R195 (D28). -/
def Obligations.TimerAccessMovesTheTimer : Prop :=
  EncodedAs 0xF0FF 0xF007 (fun w => .ldVxDt (w.extractLsb' 8 4)) ∧
  EncodedAs 0xF0FF 0xF015 (fun w => .ldDtVx (w.extractLsb' 8 4)) ∧
  EncodedAs 0xF0FF 0xF018 (fun w => .ldStVx (w.extractLsb' 8 4)) ∧
  ∀ (s : State) (x : RegIdx),
    (∃ t, exec (.ldVxDt x) s = .next t ∧ t.v x = s.dt ∧ Completes { reg := fun j => j = x } s t) ∧
    (∃ t, exec (.ldDtVx x) s = .next t ∧ t.dt = s.v x ∧ Completes { dt := true } s t) ∧
    ∃ t, exec (.ldStVx x) s = .next t ∧ t.st = s.v x ∧
      (t.soundActive = true ↔ s.v x ≠ 0) ∧ Completes { st := true } s t

/-- 44_keys_timers.md R196 (D15): with a key pressed FX0A completes in the same step and Vx gets the code
of a pressed key; with none it suspends, pc back at a. -/
def Obligations.WaitForKeyCompletesOrSuspends : Prop :=
  EncodedAs 0xF0FF 0xF00A (fun w => .ldVxK (w.extractLsb' 8 4)) ∧
  ∀ (s : State) (x : RegIdx), s.run = .running →
    ((∃ k, s.key k = true) →
      ∃ t k, exec (.ldVxK x) s = .next t ∧ s.key k = true ∧ (t.v x).toNat = k.toNat ∧
        t.draws = s.draws + 1 ∧ Completes { reg := fun j => j = x, draws := true } s t) ∧
    ((∀ k, s.key k = false) →
      ∃ t, exec (.ldVxK x) s = .next t ∧ t.run = .awaitKey x ∧ t.pc = s.pc ∧
        t.signals = ⟨false, none, true⟩ ∧ Frame { run := true } s t)

/-- 44_keys_timers.md R196 (D15): a step in AwaitKey(x) makes no fetch; with a key pressed it stores the
code of a pressed key and the core runs on after the FX0A; with none nothing changes. -/
def Obligations.AnAwaitingStepCompletesOrGoesOnWaiting : Prop :=
  ∀ (s : State) (x : RegIdx), s.run = .awaitKey x →
    ((∃ k, s.key k = true) →
      ∃ t k, step s = .next t ∧ s.key k = true ∧ (t.v x).toNat = k.toNat ∧ t.run = .running ∧
        Completes { reg := fun j => j = x, run := true, draws := true } s t) ∧
    ((∀ k, s.key k = false) →
      ∃ t, step s = .next t ∧ t.pc = s.pc ∧ t.signals = ⟨false, none, true⟩ ∧ Frame {} s t)

/-- 00_scope.md R10, 44_keys_timers.md R196 (D15): the pick is free. The key that PickPressedKey() gives, and
whose code FX0A stores, is the free value's pick among the pressed keys (log 4), and each pressed key is the
pick of some value. -/
def Obligations.EveryPressedKeyMayBePicked : Prop :=
  ∀ (s : State) (k : KeyIdx), s.key k = true →
    ∃ (first : KeyIdx) (rest : List KeyIdx), s.pressedKeys = first :: rest ∧
      s.pickPressedKey = some (pickKey (Config.pressedKeyChoice s.draws) first rest) ∧
      (∀ x, ∃ t, exec (.ldVxK x) s = .next t ∧
        (t.v x).toNat = (pickKey (Config.pressedKeyChoice s.draws) first rest).toNat) ∧
      (∀ j, j ∈ first :: rest ↔ s.key j = true) ∧
      ∃ choice, pickKey choice first rest = k

/-! ### Transactions and reset -/

/-- 60_exceptions.md R219, R220 (D24), 10_state.md R42: a tick counts DT and ST down by at most 1, no lower
than 0, and changes nothing else, whatever the run state. That it leaves the signals is log 6. -/
def Obligations.ATickCountsTheTimersDown : Prop :=
  ∀ s : State, ∃ t, transact .tickTimers s = .next (t, .none) ∧
    t.dt.toNat = s.dt.toNat - 1 ∧ t.st.toNat = s.st.toNat - 1 ∧
    (t.soundActive = true ↔ 1 < s.st.toNat) ∧
    t.pc = s.pc ∧ t.signals = s.signals ∧ Frame { dt := true, st := true } s t

/-- 60_exceptions.md R220 (D24), 10_state.md R39: a tick and a step commute unless the step executes FX07,
FX15 or FX18; no other step can tell a tick before it from a tick after it. -/
def Obligations.TicksCommuteWithStepsThatLeaveTheTimers : Prop :=
  ∀ s t : State,
    (s.run = .running → ∀ w i, s.fetch = .ok w → decode w = .ok i → ¬ accessesTimers i) →
    step s = .next t → step s.tick = .next t.tick

/-- 10_state.md R31, R40, R43 (D25, D34): a key write changes one latch and nothing else. -/
def Obligations.AKeyWriteChangesOneLatch : Prop :=
  ∀ (s : State) (k : KeyIdx) (b : Bool),
    ∃ t, transact (.setKey k b) s = .next (t, .none) ∧
      (∀ j, t.key j = if j = k then b else s.key j) ∧ { t with keys := s.keys } = s

/-- 10_state.md R41, R42 (D25), 60_exceptions.md R210 (D13): what the ports show of a state. The signals of the
last step are R36's; what they are after a fault and at reset is log 6. -/
def Obligations.ThePortsShowTheState : Prop :=
  ∀ s : State,
    (s.run = .running → s.statusPort = 0 ∧ s.faultCodePort = 0) ∧
    (∀ x, s.run = .awaitKey x → s.statusPort = 1 ∧ s.faultCodePort = 0) ∧
    (∀ r, s.run = .faulted r → s.statusPort = 2 ∧
      s.faultCodePort = match r.cause with
        | .stackOverflow => 1
        | .stackUnderflow => 2
        | .unknownOpcode => 3
        | .memoryOutOfBounds => 4
        | .romTooLarge => 5) ∧
    (s.soundPort = true ↔ s.st ≠ 0) ∧
    s.drawEvtPort = s.signals.draw ∧
    (s.unkEvtPort = true ↔ ∃ u, s.signals.unknown = some u) ∧
    ∀ y x, y < 32 → x < 64 → s.fbPixelPort (BitVec.ofNat 11 (64 * y + x)) = s.fb.pixel y x

/-- 10_state.md R38, 70_reset_and_hazards.md R240, R241 (D2, D3): the state after `construct` with an
empty ROM, for every Config; State.reset is the one with the defaults (log 2). The draws and the signals
are the model's own (log 5, log 6) and are not stated. -/
def Obligations.ResetLeavesTheStatedValues : Prop :=
  State.construct Config.default [] = State.reset ∧
  ∀ (cfg : Config), ∃ t : State, t = State.construct cfg [] ∧
    t.pc = 0x200 ∧ t.index = 0 ∧ t.sp = 0 ∧ t.dt = 0 ∧ t.st = 0 ∧ t.run = .running ∧ t.cfg = cfg ∧
    (∀ j, t.v j = 0) ∧ (∀ k, t.key k = false) ∧ (∀ k, t.stackEntry k = 0) ∧
    t.stack.length = cfg.stackDepth ∧ (∀ y x, t.fb.pixel y x = false) ∧
    (∀ k (h : k < 80), t.byteAt (0x050 + k) = cfg.font[k]) ∧
    ∀ a, a < 0x050 ∨ 0x0A0 ≤ a → t.byteAt a = 0

/-- 70_reset_and_hazards.md R242: a ROM that fits is copied to 0x200 on, and changes no other byte. -/
def Obligations.TheLoaderPlacesEachRomByte : Prop :=
  ∀ (cfg : Config) (rom : List Byte), rom.length ≤ 3584 →
    (State.construct cfg rom).run = .running ∧
    (∀ k (h : k < rom.length), (State.construct cfg rom).byteAt (0x200 + k) = rom[k]) ∧
    (∀ a, a < 0x200 ∨ 0x200 + rom.length ≤ a →
      (State.construct cfg rom).byteAt a = (State.construct cfg []).byteAt a) ∧
    { State.construct cfg rom with mem := [] } = State.construct cfg []

/-- 70_reset_and_hazards.md R243 (D29): a ROM that is too long is not loaded at all, and the core is
Faulted with code 5. -/
def Obligations.AnOversizedRomIsRefused : Prop :=
  ∀ (cfg : Config) (rom : List Byte) (s : State), 3584 < rom.length →
    ∃ t r, transact (.construct cfg rom) s = .next (t, .romTooLarge) ∧ t.run = .faulted r ∧
      r = ⟨.romTooLarge, 0x200, none, some (0x200 + rom.length)⟩ ∧ r.code = 5 ∧
      (∀ a, t.byteAt a = (State.construct cfg []).byteAt a) ∧ step t = .next t
end

