-- ==== Sys2Proof/Laws/Decode.lean ====
section
/-! SUPPORT. The fields of an assembled word, and of a word known through a mask. -/

namespace Sys2Proof

theorem extract_append_low {m n : Nat} (a : BitVec m) (b : BitVec n) :
    (a ++ b).extractLsb' 0 n = b := by
  apply BitVec.eq_of_getLsbD_eq
  intro i hi
  simp [BitVec.getLsbD_append, hi]

theorem extract_append_high {m n : Nat} (a : BitVec m) (b : BitVec n) :
    (a ++ b).extractLsb' n m = a := by
  apply BitVec.eq_of_getLsbD_eq
  intro i hi
  simp [BitVec.getLsbD_append, hi]

/-- A field of an appended word that lies in its low part. -/
theorem extract_append_of_le {m n : Nat} (a : BitVec m) (b : BitVec n) (k len : Nat) (h : k + len ≤ n) :
    (a ++ b).extractLsb' k len = b.extractLsb' k len := by
  apply BitVec.eq_of_getLsbD_eq
  intro i hi
  have : k + i < n := by omega
  simp [BitVec.getLsbD_append, hi, this]

/-- A field of an appended word that lies in its high part. -/
theorem extract_append_of_ge {m n : Nat} (a : BitVec m) (b : BitVec n) (k len : Nat) :
    (a ++ b).extractLsb' (n + k) len = a.extractLsb' k len := by
  apply BitVec.eq_of_getLsbD_eq
  intro i hi
  have h1 : ¬ n + k + i < n := by omega
  have h2 : n + k + i - n = k + i := by omega
  simp [BitVec.getLsbD_append, hi, h1, h2]

theorem extract_self {n : Nat} (a : BitVec n) : a.extractLsb' 0 n = a := by
  apply BitVec.eq_of_getLsbD_eq
  intro i hi
  simp [hi]

/-! wordNNN -/

@[simp] theorem opField_wordNNN (op : BitVec 4) (nnn : Addr12) : opField (wordNNN op nnn) = op :=
  extract_append_high op nnn

@[simp] theorem nnnField_wordNNN (op : BitVec 4) (nnn : Addr12) : nnnField (wordNNN op nnn) = nnn :=
  extract_append_low op nnn

/-! wordXNN -/

@[simp] theorem opField_wordXNN (op x : BitVec 4) (nn : Byte) : opField (wordXNN op x nn) = op :=
  (extract_append_of_ge (op ++ x) nn 4 4).trans (extract_append_high op x)

@[simp] theorem xField_wordXNN (op x : BitVec 4) (nn : Byte) : xField (wordXNN op x nn) = x :=
  (extract_append_of_ge (op ++ x) nn 0 4).trans (extract_append_low op x)

@[simp] theorem nnField_wordXNN (op x : BitVec 4) (nn : Byte) : nnField (wordXNN op x nn) = nn :=
  extract_append_low (op ++ x) nn

/-! wordXYN -/

@[simp] theorem opField_wordXYN (op x y n : BitVec 4) : opField (wordXYN op x y n) = op :=
  (extract_append_of_ge (op ++ x ++ y) n 8 4).trans
    ((extract_append_of_ge (op ++ x) y 4 4).trans (extract_append_high op x))

@[simp] theorem xField_wordXYN (op x y n : BitVec 4) : xField (wordXYN op x y n) = x :=
  (extract_append_of_ge (op ++ x ++ y) n 4 4).trans
    ((extract_append_of_ge (op ++ x) y 0 4).trans (extract_append_low op x))

@[simp] theorem yField_wordXYN (op x y n : BitVec 4) : yField (wordXYN op x y n) = y :=
  (extract_append_of_ge (op ++ x ++ y) n 0 4).trans (extract_append_low (op ++ x) y)

@[simp] theorem nField_wordXYN (op x y n : BitVec 4) : nField (wordXYN op x y n) = n :=
  extract_append_low (op ++ x ++ y) n

/-! A word is what its fields assemble to. -/

theorem wordNNN_fields (w : Word) : wordNNN (opField w) (nnnField w) = w := by
  apply BitVec.eq_of_getLsbD_eq
  intro i hi
  simp only [wordNNN, opField, nnnField, BitVec.getLsbD_append, BitVec.getLsbD_extractLsb']
  by_cases h : i < 12
  · simp [h]
  · have : i - 12 < 4 := by omega
    simp [h, this, show 12 + (i - 12) = i by omega]

theorem nnnField_eq (w : Word) : nnnField w = xField w ++ nnField w := by
  apply BitVec.eq_of_getLsbD_eq
  intro i hi
  simp only [nnnField, xField, nnField, BitVec.getLsbD_append, BitVec.getLsbD_extractLsb']
  by_cases h : i < 8
  · simp [h, hi]
  · have : i - 8 < 4 := by omega
    simp [h, hi, this, show 8 + (i - 8) = i by omega]

theorem nnField_eq (w : Word) : nnField w = yField w ++ nField w := by
  apply BitVec.eq_of_getLsbD_eq
  intro i hi
  simp only [nnField, yField, nField, BitVec.getLsbD_append, BitVec.getLsbD_extractLsb']
  by_cases h : i < 4
  · simp [h, hi]
  · have : i - 4 < 4 := by omega
    simp [h, hi, this, show 4 + (i - 4) = i by omega]

theorem wordXNN_fields (w : Word) : wordXNN (opField w) (xField w) (nnField w) = w := by
  conv => rhs; rw [← wordNNN_fields w, nnnField_eq]
  simp only [wordNNN, wordXNN]
  apply BitVec.eq_of_getLsbD_eq
  intro i hi
  simp only [BitVec.getLsbD_append]
  by_cases h : i < 8
  · simp [h, show i < 12 by omega]
  · by_cases h2 : i < 12
    · simp [h, h2, show i - 8 < 4 by omega]
    · simp [h, h2, show ¬ i - 8 < 4 by omega, show i - 8 - 4 = i - 12 by omega]

theorem wordXYN_fields (w : Word) : wordXYN (opField w) (xField w) (yField w) (nField w) = w := by
  conv => rhs; rw [← wordXNN_fields w, nnField_eq]
  simp only [wordXNN, wordXYN]
  apply BitVec.eq_of_getLsbD_eq
  intro i hi
  simp only [BitVec.getLsbD_append]
  by_cases h : i < 4
  · simp [h, show i < 8 by omega]
  · by_cases h2 : i < 8
    · simp [h, h2, show i - 4 < 4 by omega]
    · simp [h, h2, show ¬ i - 4 < 4 by omega, show i - 4 - 4 = i - 8 by omega]

/-! Masks (30_encoding.md R76). -/

/-- A field of a masked word is the masked field. -/
theorem extract_and (w mask : Word) (k len : Nat) :
    (w &&& mask).extractLsb' k len = w.extractLsb' k len &&& mask.extractLsb' k len := by
  apply BitVec.eq_of_getLsbD_eq
  intro i hi
  simp [hi]

/-- A word that matches under a mask that keeps the op nibble has the match's op. -/
theorem opField_of_match {w mask word : Word} (h : w &&& mask = word)
    (hm : opField mask = BitVec.allOnes 4) : opField w = opField word := by
  have := congrArg opField h
  simpa only [opField, extract_and, show mask.extractLsb' 12 4 = BitVec.allOnes 4 from hm,
    BitVec.and_allOnes] using this

/-- The same for the low nibble. -/
theorem nField_of_match {w mask word : Word} (h : w &&& mask = word)
    (hm : nField mask = BitVec.allOnes 4) : nField w = nField word := by
  have := congrArg nField h
  simpa only [nField, extract_and, show mask.extractLsb' 0 4 = BitVec.allOnes 4 from hm,
    BitVec.and_allOnes] using this

/-- The same for the low byte. -/
theorem nnField_of_match {w mask word : Word} (h : w &&& mask = word)
    (hm : nnField mask = BitVec.allOnes 8) : nnField w = nnField word := by
  have := congrArg nnField h
  simpa only [nnField, extract_and, show mask.extractLsb' 0 8 = BitVec.allOnes 8 from hm,
    BitVec.and_allOnes] using this

/-- A word's bytes put together again are the word. -/
@[simp] theorem wordOfBytes_bytes (w : Word) : wordOfBytes (highByte w) (lowByte w) = w := by
  apply BitVec.eq_of_getLsbD_eq
  intro i hi
  simp only [wordOfBytes, highByte, lowByte, BitVec.getLsbD_append, BitVec.getLsbD_extractLsb']
  by_cases h : i < 8
  · simp [h]
  · have : i - 8 < 8 := by omega
    simp [h, this, show 8 + (i - 8) = i by omega]

@[simp] theorem highByte_wordOfBytes (hi lo : Byte) : highByte (wordOfBytes hi lo) = hi :=
  extract_append_high hi lo

@[simp] theorem lowByte_wordOfBytes (hi lo : Byte) : lowByte (wordOfBytes hi lo) = lo :=
  extract_append_low hi lo

end Sys2Proof
end

