-- ==== Sys2Proof/Laws/Framebuffer.lean ====
section
/-! SUPPORT. What the framebuffer operations do, pixel by pixel: the loops of 43_display.md R172 in
closed form. -/

namespace Sys2Proof.Machine

/-- Every pixel of the clear framebuffer is 0. -/
@[simp] theorem Framebuffer.pixel_clear (y x : Nat) : Framebuffer.clear.pixel y x = false := by
  simp [Framebuffer.pixel, Framebuffer.clear]

/-- There is no pixel outside the screen. -/
theorem Framebuffer.pixel_outside (fb : Framebuffer) (y x : Nat) (h : ¬ (y < 32 ∧ x < 64)) :
    fb.pixel y x = false := by
  simp only [Framebuffer.pixel, dif_neg h]

/-- Two framebuffers with the same pixels are the same. -/
theorem Framebuffer.ext_pixel {f g : Framebuffer} (h : ∀ y x, f.pixel y x = g.pixel y x) : f = g := by
  apply Vector.ext
  intro y hy
  apply Vector.ext
  intro x hx
  have := h y x
  simpa [Framebuffer.pixel, hy, hx] using this

/-- Turning over one pixel of the screen leaves every other alone. -/
theorem Framebuffer.pixel_flip (fb : Framebuffer) (py px y x : Nat) :
    (fb.flip py px).pixel y x =
      (fb.pixel y x ^^ decide (y = py ∧ x = px ∧ y < 32 ∧ x < 64)) := by
  unfold Framebuffer.flip
  by_cases hp : py < 32 ∧ px < 64
  · rw [dif_pos hp]
    unfold Framebuffer.pixel
    by_cases hi : y < 32 ∧ x < 64
    · rw [dif_pos hi, dif_pos hi]
      by_cases hy : y = py
      · subst hy
        by_cases hx : x = px
        · subst hx; simp [hi]
        · simp [hx, Ne.symm hx]
      · simp [hy, Ne.symm hy]
    · rw [dif_neg hi, dif_neg hi]
      have : ¬ (y = py ∧ x = px ∧ y < 32 ∧ x < 64) := fun h => hi h.2.2
      simp [this]
  · rw [dif_neg hp]
    have : ¬ (y = py ∧ x = px ∧ y < 32 ∧ x < 64) := by
      rintro ⟨rfl, rfl, h⟩; exact hp h
    simp [this]

/-- The pixel (py, px0 + c) is on the screen and bit c of the row is set: the pixel column c turns over. -/
def columnHit (px0 py : Nat) (row : Byte) (c : Nat) : Bool :=
  decide (py < 32 ∧ px0 + c < 64) && spriteBit row c

/-- One column, seen pixel by pixel. -/
theorem plotColumn_pixel (px0 py : Nat) (row : Byte) (p : Plot) (c y x : Nat) :
    (plotColumn px0 py row p c).fb.pixel y x =
      (p.fb.pixel y x ^^ (decide (y = py ∧ x = px0 + c) && columnHit px0 py row c)) := by
  unfold plotColumn columnHit
  dsimp only
  split
  · have : ¬ (py < 32 ∧ px0 + c < 64) := by omega
    simp [this]
  · split
    · have : ¬ (py < 32 ∧ px0 + c < 64) := by omega
      simp [this]
    · have hin : py < 32 ∧ px0 + c < 64 := by omega
      split
      · rename_i hb
        rw [Framebuffer.pixel_flip]
        by_cases h : y = py ∧ x = px0 + c
        · obtain ⟨rfl, rfl⟩ := h; simp [hin, hb]
        · have : ¬ (y = py ∧ x = px0 + c ∧ y < 32 ∧ x < 64) := fun h' => h ⟨h'.1, h'.2.1⟩
          simp only [this, h, decide_false, Bool.false_and]
      · rename_i hb; simp [hb]

/-- One column, the collision flag. -/
theorem plotColumn_collide (px0 py : Nat) (row : Byte) (p : Plot) (c : Nat) :
    (plotColumn px0 py row p c).collide =
      (p.collide || (columnHit px0 py row c && p.fb.pixel py (px0 + c))) := by
  unfold plotColumn columnHit
  dsimp only
  split
  · have : ¬ (py < 32 ∧ px0 + c < 64) := by omega
    simp [this]
  · split
    · have : ¬ (py < 32 ∧ px0 + c < 64) := by omega
      simp [this]
    · have hin : py < 32 ∧ px0 + c < 64 := by omega
      split
      · rename_i hb; simp [hin, hb]
      · rename_i hb; simp [hb]

/-- Several columns, seen pixel by pixel: the columns are distinct, so each pixel turns over at most once. -/
theorem plotColumns_pixel (px0 py : Nat) (row : Byte) (cs : List Nat) (hcs : cs.Nodup) (p : Plot) (y x : Nat) :
    (cs.foldl (plotColumn px0 py row) p).fb.pixel y x =
      (p.fb.pixel y x ^^ cs.any (fun c => decide (y = py ∧ x = px0 + c) && columnHit px0 py row c)) := by
  induction cs generalizing p with
  | nil => simp
  | cons c cs ih =>
    obtain ⟨hc, hcs⟩ := List.nodup_cons.1 hcs
    rw [List.foldl_cons, ih hcs, plotColumn_pixel, List.any_cons]
    by_cases h : y = py ∧ x = px0 + c
    · have : cs.any (fun d => decide (y = py ∧ x = px0 + d) && columnHit px0 py row d) = false := by
        rw [List.any_eq_false]
        intro d hd
        have : ¬ (y = py ∧ x = px0 + d) := by
          rintro ⟨-, hx⟩
          exact hc (by rwa [show c = d by omega])
        simp [this]
      rw [this]
      cases columnHit px0 py row c <;> cases p.fb.pixel y x <;> simp
    · simp [h]

/-- Several columns, the collision flag. -/
theorem plotColumns_collide (px0 py : Nat) (row : Byte) (cs : List Nat) (hcs : cs.Nodup) (p : Plot) :
    (cs.foldl (plotColumn px0 py row) p).collide =
      (p.collide || cs.any (fun c => columnHit px0 py row c && p.fb.pixel py (px0 + c))) := by
  induction cs generalizing p with
  | nil => simp
  | cons c cs ih =>
    obtain ⟨hc, hcs⟩ := List.nodup_cons.1 hcs
    rw [List.foldl_cons, ih hcs, plotColumn_collide, List.any_cons, Bool.or_assoc]
    have : cs.any (fun d => columnHit px0 py row d && (plotColumn px0 py row p c).fb.pixel py (px0 + d)) =
        cs.any (fun d => columnHit px0 py row d && p.fb.pixel py (px0 + d)) := by
      rw [Bool.eq_iff_iff, List.any_eq_true, List.any_eq_true]
      refine exists_congr fun d => and_congr_right fun hd => ?_
      have : ¬ px0 + d = px0 + c := fun h => hc (by rwa [show c = d by omega])
      rw [plotColumn_pixel]
      simp only [this, and_false, decide_false, Bool.false_and, Bool.xor_false]
    rw [this]

/-- The pixel (y, x) is on the screen and is turned over by the sprite with these rows, its top left
corner at row py and column px0 (43_display.md R172, R173). -/
def spriteHit (px0 py : Nat) (rows : List Byte) (y x : Nat) : Bool :=
  decide (py ≤ y ∧ y < py + rows.length ∧ px0 ≤ x ∧ x < px0 + 8 ∧ y < 32 ∧ x < 64) &&
    spriteBit (rows.getD (y - py) 0) (x - px0)

/-- One row of a sprite, as a hit. -/
theorem columns_any (px0 py : Nat) (row : Byte) (y x : Nat) :
    [0, 1, 2, 3, 4, 5, 6, 7].any (fun c => decide (y = py ∧ x = px0 + c) && columnHit px0 py row c) =
      spriteHit px0 py [row] y x := by
  rw [Bool.eq_iff_iff, List.any_eq_true]
  simp only [spriteHit, columnHit, Bool.and_eq_true, decide_eq_true_eq, List.length_singleton]
  constructor
  · rintro ⟨c, hc, ⟨rfl, rfl⟩, h, hb⟩
    have : c < 8 := by simp at hc; omega
    refine ⟨by omega, ?_⟩
    simpa using hb
  · rintro ⟨h, hb⟩
    refine ⟨x - px0, by simp; omega, ⟨by omega, by omega⟩, by omega, ?_⟩
    rw [show y - py = 0 by omega] at hb
    simpa using hb

/-- One row, seen pixel by pixel. -/
theorem plotRow_pixel (px0 py : Nat) (row : Byte) (p : Plot) (y x : Nat) :
    (plotRow px0 py row p).fb.pixel y x = (p.fb.pixel y x ^^ spriteHit px0 py [row] y x) := by
  rw [plotRow, plotColumns_pixel _ _ _ _ (by decide), columns_any]

/-- One row, the collision flag: a pixel that the row turns over was 1. -/
theorem plotRow_collide (px0 py : Nat) (row : Byte) (p : Plot) :
    (plotRow px0 py row p).collide = true ↔
      p.collide = true ∨ ∃ y x, spriteHit px0 py [row] y x = true ∧ p.fb.pixel y x = true := by
  rw [plotRow, plotColumns_collide _ _ _ _ (by decide), Bool.or_eq_true, List.any_eq_true]
  refine or_congr_right ⟨?_, ?_⟩
  · rintro ⟨c, hc, h⟩
    rw [Bool.and_eq_true] at h
    refine ⟨py, px0 + c, ?_, h.2⟩
    rw [← columns_any, List.any_eq_true]
    exact ⟨c, hc, by simp [h.1]⟩
  · rintro ⟨y, x, h, hp⟩
    rw [← columns_any, List.any_eq_true] at h
    obtain ⟨c, hc, h⟩ := h
    simp only [Bool.and_eq_true, decide_eq_true_eq] at h
    obtain ⟨⟨rfl, rfl⟩, h⟩ := h
    exact ⟨c, hc, by simp [h, hp]⟩

/-- A sprite is its first row and the rest one row lower. -/
theorem spriteHit_cons (px0 py : Nat) (row : Byte) (rows : List Byte) (y x : Nat) :
    spriteHit px0 py (row :: rows) y x =
      (spriteHit px0 py [row] y x ^^ spriteHit px0 (py + 1) rows y x) := by
  unfold spriteHit
  by_cases h : y = py
  · subst h
    have : ¬ (y + 1 ≤ y ∧ y < y + 1 + rows.length ∧ px0 ≤ x ∧ x < px0 + 8 ∧ y < 32 ∧ x < 64) := by omega
    simp only [this, decide_false, Bool.false_and, Bool.xor_false, Nat.sub_self, List.getD_cons_zero]
    congr 1
    simp only [decide_eq_decide, List.length_cons, List.length_nil]
    omega
  · have : ¬ (py ≤ y ∧ y < py + [row].length ∧ px0 ≤ x ∧ x < px0 + 8 ∧ y < 32 ∧ x < 64) := by
      simp only [List.length_singleton]; omega
    simp only [this, decide_false, Bool.false_and, Bool.false_xor]
    by_cases h' : py + 1 ≤ y
    · rw [show y - py = (y - (py + 1)) + 1 by omega, List.getD_cons_succ]
      congr 1
      simp only [decide_eq_decide, List.length_cons]
      omega
    · have h1 : ¬ (py ≤ y ∧ y < py + (row :: rows).length ∧ px0 ≤ x ∧ x < px0 + 8 ∧ y < 32 ∧ x < 64) := by
        omega
      have h2 : ¬ (py + 1 ≤ y ∧ y < py + 1 + rows.length ∧ px0 ≤ x ∧ x < px0 + 8 ∧ y < 32 ∧ x < 64) := by
        omega
      simp only [h1, h2, decide_false, Bool.false_and]

/-- A pixel is in one row of a sprite at most. -/
theorem spriteHit_disjoint (px0 py : Nat) (row : Byte) (rows : List Byte) (y x : Nat)
    (h : spriteHit px0 (py + 1) rows y x = true) : spriteHit px0 py [row] y x = false := by
  simp only [spriteHit, Bool.and_eq_true, decide_eq_true_eq] at h
  have : ¬ (py ≤ y ∧ y < py + [row].length ∧ px0 ≤ x ∧ x < px0 + 8 ∧ y < 32 ∧ x < 64) := by
    simp only [List.length_singleton]; omega
  simp only [spriteHit, this, decide_false, Bool.false_and]

/-- The sprite plot, seen pixel by pixel: each pixel the sprite hits turns over, no other changes. -/
theorem plotRows_pixel (px0 py : Nat) (rows : List Byte) (p : Plot) (y x : Nat) :
    (plotRows px0 py rows p).fb.pixel y x = (p.fb.pixel y x ^^ spriteHit px0 py rows y x) := by
  induction rows generalizing py p with
  | nil =>
    have : ¬ (py ≤ y ∧ y < py + ([] : List Byte).length ∧ px0 ≤ x ∧ x < px0 + 8 ∧ y < 32 ∧ x < 64) := by
      simp only [List.length_nil]; omega
    simp only [plotRows, spriteHit, this, decide_false, Bool.false_and, Bool.xor_false]
  | cons row rows ih =>
    rw [plotRows, ih, plotRow_pixel, spriteHit_cons px0 py row rows, Bool.xor_assoc]

/-- The sprite plot, the collision flag: some pixel the sprite hits was 1, anywhere in the sprite. -/
theorem plotRows_collide (px0 py : Nat) (rows : List Byte) (p : Plot) :
    (plotRows px0 py rows p).collide = true ↔
      p.collide = true ∨ ∃ y x, spriteHit px0 py rows y x = true ∧ p.fb.pixel y x = true := by
  induction rows generalizing py p with
  | nil =>
    simp only [plotRows, spriteHit, List.length_nil, Bool.and_eq_true, decide_eq_true_eq]
    constructor
    · exact .inl
    · rintro (h | ⟨y, x, ⟨h, -⟩, -⟩)
      · exact h
      · omega
  | cons row rows ih =>
    rw [plotRows, ih, plotRow_collide, or_assoc]
    refine or_congr_right ⟨?_, ?_⟩
    · rintro (⟨y, x, h, hp⟩ | ⟨y, x, h, hp⟩)
      · refine ⟨y, x, ?_, hp⟩
        rw [spriteHit_cons]
        cases h2 : spriteHit px0 (py + 1) rows y x
        · simp [h]
        · rw [spriteHit_disjoint _ _ _ _ _ _ h2] at h; cases h
      · refine ⟨y, x, ?_, ?_⟩
        · rw [spriteHit_cons, spriteHit_disjoint _ _ _ _ _ _ h, h]; rfl
        · rwa [plotRow_pixel, spriteHit_disjoint _ _ _ _ _ _ h, Bool.xor_false] at hp
    · rintro ⟨y, x, h, hp⟩
      rw [spriteHit_cons] at h
      cases h2 : spriteHit px0 (py + 1) rows y x
      · rw [h2, Bool.xor_false] at h
        exact .inl ⟨y, x, h, hp⟩
      · refine .inr ⟨y, x, h2, ?_⟩
        rw [plotRow_pixel, spriteHit_disjoint _ _ _ _ _ _ h2, hp]; rfl

end Sys2Proof.Machine
end

