-- ==== Sys2Proof/Laws/Memory.lean ====
section
/-! SUPPORT. What the memory operations do: read after write, the canonical form, and multi-byte
accesses. -/

namespace Sys2Proof.Machine

variable (font : Font)

/-- An address below every listed one reads as the reset image. -/
theorem Memory.get_of_lt (m : Memory) (a : Nat) (h : ∀ c ∈ m, a < c.1) :
    Memory.get font m a = resetByte font a := by
  induction m with
  | nil => rfl
  | cons c m ih =>
    have hc := h c (by simp)
    rw [Memory.get, if_neg (by omega)]
    exact ih (fun d hd => h d (by simp [hd]))

/-- A write leaves every other address alone. -/
theorem Memory.get_put_other (m : Memory) (a a' : Nat) (b : Byte) (h : a' ≠ a) :
    Memory.get font (Memory.put font m a b) a' = Memory.get font m a' := by
  induction m with
  | nil =>
    unfold Memory.put
    split <;> simp [Memory.get, Ne.symm h]
  | cons c m ih =>
    obtain ⟨k, d⟩ := c
    unfold Memory.put
    split
    · split <;> simp [Memory.get, Ne.symm h]
    · split
      · rename_i hk
        split <;> simp [Memory.get, ← hk, Ne.symm h]
      · simp [Memory.get, ih]

/-- A read after a write to the same address, in a canonical memory. -/
theorem Memory.get_put_same (m : Memory) (a : Nat) (b : Byte)
    (hm : m.Pairwise (fun c d => c.1 < d.1)) : Memory.get font (Memory.put font m a b) a = b := by
  induction m with
  | nil =>
    unfold Memory.put
    split
    · rename_i hb; simp [Memory.get, hb]
    · simp [Memory.get]
  | cons c m ih =>
    obtain ⟨k, d⟩ := c
    have hlt := (List.pairwise_cons.1 hm).1
    unfold Memory.put
    split
    · rename_i hak
      split
      · rename_i hb
        rw [Memory.get_of_lt font _ a, hb]
        intro c hc
        rcases List.mem_cons.1 hc with rfl | hc
        · exact hak
        · exact Nat.lt_trans hak (hlt c hc)
      · simp [Memory.get]
    · split
      · rename_i hak
        split
        · rename_i hb
          rw [Memory.get_of_lt font _ a, hb]
          intro c hc
          have := hlt c hc
          simpa [hak] using this
        · simp [Memory.get]
      · rename_i h1 h2
        rw [Memory.get, if_neg (fun h => h2 h.symm)]
        exact ih (List.pairwise_cons.1 hm).2

/-- Where the cells of a written memory come from. -/
theorem Memory.mem_put (m : Memory) (a : Nat) (b : Byte) (c : Host.Cell)
    (h : c ∈ Memory.put font m a b) : c ∈ m ∨ (c = (a, b) ∧ b ≠ resetByte font a) := by
  induction m with
  | nil =>
    unfold Memory.put at h
    split at h
    · simp at h
    · rename_i hb; simp at h; exact .inr ⟨h, hb⟩
  | cons d m ih =>
    obtain ⟨k, e⟩ := d
    unfold Memory.put at h
    split at h
    · split at h
      · exact .inl h
      · rename_i hb
        rcases List.mem_cons.1 h with rfl | h
        · exact .inr ⟨rfl, hb⟩
        · exact .inl h
    · split at h
      · split at h
        · exact .inl (by simp [h])
        · rename_i hb
          rcases List.mem_cons.1 h with rfl | h
          · exact .inr ⟨rfl, hb⟩
          · exact .inl (by simp [h])
      · rcases List.mem_cons.1 h with rfl | h
        · exact .inl (by simp)
        · rcases ih h with h | h
          · exact .inl (by simp [h])
          · exact .inr h

/-- A write keeps the addresses strictly rising. -/
theorem Memory.pairwise_put (m : Memory) (a : Nat) (b : Byte)
    (hm : m.Pairwise (fun c d => c.1 < d.1)) :
    (Memory.put font m a b).Pairwise (fun c d => c.1 < d.1) := by
  induction m with
  | nil => unfold Memory.put; split <;> simp
  | cons d m ih =>
    obtain ⟨k, e⟩ := d
    have hlt := (List.pairwise_cons.1 hm).1
    have htl := (List.pairwise_cons.1 hm).2
    unfold Memory.put
    split
    · rename_i hak
      split
      · exact hm
      · refine List.pairwise_cons.2 ⟨?_, hm⟩
        intro c hc
        rcases List.mem_cons.1 hc with rfl | hc
        · exact hak
        · exact Nat.lt_trans hak (hlt c hc)
    · split
      · rename_i hak
        split
        · exact htl
        · refine List.pairwise_cons.2 ⟨?_, htl⟩
          intro c hc
          have := hlt c hc
          simpa [hak] using this
      · rename_i h1 h2
        refine List.pairwise_cons.2 ⟨?_, ih htl⟩
        intro c hc
        rcases Memory.mem_put font m a b c hc with hc | ⟨rfl, -⟩
        · exact hlt c hc
        · exact Nat.lt_of_le_of_ne (Nat.le_of_not_lt h1) (fun h => h2 h.symm)

/-- Every write within the address space keeps the canonical form. -/
theorem Memory.put_wf (m : Memory) (a : Nat) (b : Byte) (ha : a < 4096) (hm : Memory.wf font m) :
    Memory.wf font (Memory.put font m a b) := by
  refine ⟨Memory.pairwise_put font m a b hm.1, ?_⟩
  intro c hc
  rcases Memory.mem_put font m a b c hc with hc | ⟨rfl, hb⟩
  · exact hm.2 c hc
  · exact ⟨ha, hb⟩

/-- The empty list is canonical: memory with nothing listed, as State.reset has it. -/
theorem Memory.nil_wf : Memory.wf font [] := by simp [Memory.wf]

/-! Resolving an address. -/

/-- A resolved address is an address of `mem` (20_memory.md R53). -/
theorem State.resolve_lt {s : State} {addr a : Nat} (h : s.resolve addr = .ok a) : a < 4096 := by
  unfold State.resolve at h
  split at h
  · cases h; assumption
  · split at h
    · cases h; exact Nat.mod_lt _ (by decide)
    · cases h

/-- Where an address in bounds, or any address under Wrap, resolves to. -/
theorem State.resolve_ok {s : State} {addr : Nat} (h : addr < 4096 ∨ s.cfg.oobPolicy = .wrap) :
    s.resolve addr = .ok (addr % 4096) := by
  unfold State.resolve
  split
  · rename_i hlt; rw [Nat.mod_eq_of_lt hlt]
  · rcases h with h | h
    · omega
    · rw [h]

/-- Under Fatal an address of 4096 or more is reported (20_memory.md R53). -/
theorem State.resolve_error {s : State} {addr : Nat} (hf : s.cfg.oobPolicy = .fatal) (h : 4096 ≤ addr) :
    s.resolve addr = .error addr := by
  unfold State.resolve
  rw [if_neg (by omega), hf]

/-- A block resolves under Wrap, in bounds, or when it is empty (20_memory.md R53). -/
theorem State.blockResolves_iff (s : State) (n : Nat) :
    s.blockResolves n = true ↔ s.cfg.oobPolicy = .wrap ∨ s.index.toNat + n ≤ 4096 ∨ n = 0 := by
  simp [State.blockResolves, or_assoc]

/-- A block that does not resolve: Fatal, not empty, and its end is past `mem`. -/
theorem State.blockResolves_eq_false (s : State) (n : Nat) :
    s.blockResolves n = false ↔ s.cfg.oobPolicy = .fatal ∧ 4096 < s.index.toNat + n ∧ 0 < n := by
  rw [← Bool.not_eq_true, State.blockResolves_iff]
  cases s.cfg.oobPolicy <;> simp

/-- Resolving fails only under Fatal, on an address of 4096 or more, and reports that address. -/
theorem State.resolve_eq_error {s : State} {addr e : Nat} (h : s.resolve addr = .error e) :
    e = addr ∧ 4096 ≤ addr ∧ s.cfg.oobPolicy = .fatal := by
  unfold State.resolve at h
  split at h
  · cases h
  · split at h
    · cases h
    · rename_i hp; cases h; exact ⟨rfl, by omega, hp⟩

theorem State.resolvesTo_iff (s : State) (addr a : Nat) :
    s.resolvesTo addr a = true ↔ s.resolve addr = .ok a := by
  unfold State.resolvesTo
  split
  · rename_i b hb; simp [hb]
  · rename_i e he; simp [he]

/-! Single-byte accesses. -/

theorem State.memRead_ok {s : State} {addr a : Nat} (h : s.resolve addr = .ok a) :
    s.memRead addr = .ok (s.byteAt a) := by
  simp [State.memRead, h]

theorem State.memRead_eq_error {s : State} {addr e : Nat} (h : s.memRead addr = .error e) :
    e = addr ∧ 4096 ≤ addr ∧ s.cfg.oobPolicy = .fatal := by
  unfold State.memRead at h
  split at h
  · cases h
  · rename_i e' he; cases h; exact State.resolve_eq_error he

/-- All a byte write can do (20_memory.md R53, R58). -/
theorem State.memWrite_spec (s : State) (addr : Nat) (b : Byte) :
    match s.memWrite addr b with
    | .ok t => ∃ a, s.resolve addr = .ok a ∧ t = s.setMem (s.mem.put s.cfg.font a b)
    | .error e => e = addr ∧ 4096 ≤ addr ∧ s.cfg.oobPolicy = .fatal := by
  unfold State.memWrite
  cases h : s.resolve addr with
  | ok a => exact ⟨a, rfl, rfl⟩
  | error e => exact State.resolve_eq_error h

/-- A byte write, seen through byte reads, in a canonical memory. -/
theorem State.byteAt_put (s : State) (hm : s.mem.wf s.cfg.font) (a a' : Nat) (b : Byte) :
    (s.setMem (s.mem.put s.cfg.font a b)).byteAt a' = if a' = a then b else s.byteAt a' := by
  by_cases h : a' = a
  · subst h
    simp [State.byteAt, Memory.get_put_same _ _ _ _ hm.1]
  · simp [State.byteAt, h, Memory.get_put_other _ _ _ _ _ h]

/-! Multi-byte accesses. -/

/-- A block read whose every address resolves gives the bytes at the resolved addresses. -/
theorem State.readBytes_ok (s : State) (addr n : Nat)
    (h : s.cfg.oobPolicy = .wrap ∨ addr + n ≤ 4096 ∨ n = 0) :
    s.readBytes addr n = .ok ((List.range n).map (fun k => s.byteAt ((addr + k) % 4096))) := by
  induction n generalizing addr with
  | zero => rfl
  | succ n ih =>
    have h0 : s.resolve addr = .ok (addr % 4096) :=
      State.resolve_ok (by rcases h with h | h | h; exacts [.inr h, .inl (by omega), absurd h (by omega)])
    rw [State.readBytes, State.memRead_ok h0, ih (addr + 1) (by rcases h with h | h | h; exacts [.inl h, .inr (.inl (by omega)), absurd h (by omega)])]
    simp [List.range_succ_eq_map, Nat.add_assoc, Nat.add_comm 1, Function.comp_def]

/-- A block access under Fatal that leaves `mem` reports the lowest address out of range
(60_exceptions.md R216). -/
theorem State.readBytes_error (s : State) (addr n : Nat) (hf : s.cfg.oobPolicy = .fatal)
    (h : 4096 < addr + n) (hn : 0 < n) : s.readBytes addr n = .error (max addr 4096) := by
  induction n generalizing addr with
  | zero => omega
  | succ n ih =>
    by_cases ha : addr < 4096
    · rw [State.readBytes, State.memRead_ok (State.resolve_ok (.inl ha)), ih (addr + 1) (by omega) (by omega)]
      simp only [show max (addr + 1) 4096 = max addr 4096 by omega]
    · have he : s.memRead addr = .error addr := by
        simp [State.memRead, State.resolve_error hf (Nat.le_of_not_lt ha)]
      rw [State.readBytes, he, show max addr 4096 = addr by omega]

/-- A block write changes `mem` and nothing else. -/
theorem State.writeBytes_mem (bs : List Byte) {s t : State} {addr : Nat}
    (h : s.writeBytes addr bs = .ok t) : t = s.setMem t.mem := by
  induction bs generalizing s addr with
  | nil => cases h; rfl
  | cons b bs ih =>
    rw [State.writeBytes] at h
    have hw := s.memWrite_spec addr b
    split at h
    · cases h
    · rename_i u hu
      rw [hu] at hw
      obtain ⟨a, -, rfl⟩ := hw
      have := ih h
      exact this

/-- A block write keeps the canonical form. -/
theorem State.writeBytes_wf (bs : List Byte) {s t : State} {addr : Nat}
    (h : s.writeBytes addr bs = .ok t) (hm : s.mem.wf s.cfg.font) : t.mem.wf t.cfg.font := by
  induction bs generalizing s addr with
  | nil => cases h; exact hm
  | cons b bs ih =>
    rw [State.writeBytes] at h
    have hw := s.memWrite_spec addr b
    split at h
    · cases h
    · rename_i u hu
      rw [hu] at hw
      obtain ⟨a, ha, rfl⟩ := hw
      exact ih h (Memory.put_wf _ _ _ _ (State.resolve_lt ha) hm)

/-- A block write whose every address resolves succeeds. -/
theorem State.writeBytes_ok (bs : List Byte) (s : State) (addr : Nat)
    (h : s.cfg.oobPolicy = .wrap ∨ addr + bs.length ≤ 4096 ∨ bs = []) :
    ∃ t, s.writeBytes addr bs = .ok t := by
  induction bs generalizing s addr with
  | nil => exact ⟨s, rfl⟩
  | cons b bs ih =>
    simp only [List.length_cons] at h
    have h0 : s.resolve addr = .ok (addr % 4096) :=
      State.resolve_ok (by rcases h with h | h | h; exact .inr h; exact .inl (by omega); cases h)
    rw [State.writeBytes, State.memWrite, h0]
    apply ih
    rcases h with h | h | h
    · exact .inl h
    · exact .inr (.inl (by omega))
    · cases h

/-- A block write under Fatal that leaves `mem` reports the lowest address out of range. -/
theorem State.writeBytes_error (bs : List Byte) (s : State) (addr : Nat) (hf : s.cfg.oobPolicy = .fatal)
    (h : 4096 < addr + bs.length) (hn : bs ≠ []) : s.writeBytes addr bs = .error (max addr 4096) := by
  induction bs generalizing s addr with
  | nil => exact absurd rfl hn
  | cons b bs ih =>
    simp only [List.length_cons] at h
    by_cases ha : addr < 4096
    · have := ih (s.setMem (s.mem.put s.cfg.font (addr % 4096) b)) (addr + 1) hf (by omega)
        (by rintro rfl; simp at h; omega)
      rw [State.writeBytes, State.memWrite, State.resolve_ok (.inl ha),
        show max addr 4096 = max (addr + 1) 4096 by omega]
      exact this
    · rw [State.writeBytes, State.memWrite, State.resolve_error hf (Nat.le_of_not_lt ha),
        show max addr 4096 = addr by omega]

/-- A block write that succeeds leaves every byte alone that none of its addresses resolves to. -/
theorem State.byteAt_writeBytes_other (bs : List Byte) {s t : State} {addr : Nat}
    (h : s.writeBytes addr bs = .ok t) (a : Nat)
    (ha : ∀ k, k < bs.length → s.resolve (addr + k) ≠ .ok a) : t.byteAt a = s.byteAt a := by
  induction bs generalizing s addr with
  | nil => cases h; rfl
  | cons b bs ih =>
    rw [State.writeBytes] at h
    have hw := s.memWrite_spec addr b
    split at h
    · cases h
    · rename_i u hu
      rw [hu] at hw
      obtain ⟨a0, ha0, rfl⟩ := hw
      have hne : a ≠ a0 := by
        rintro rfl
        exact ha 0 (by simp) ha0
      refine (ih h ?_).trans (Memory.get_put_other _ _ _ _ _ hne)
      intro k hk
      have hres : (s.setMem (s.mem.put s.cfg.font a0 b)).resolve = s.resolve := State.resolve_congr rfl
      rw [hres, show addr + 1 + k = addr + (k + 1) by omega]
      exact ha (k + 1) (by simpa using hk)

/-- Where a resolved address lies (20_memory.md R53). -/
theorem State.resolve_eq_mod {s : State} {addr a : Nat} (h : s.resolve addr = .ok a) : a = addr % 4096 := by
  unfold State.resolve at h
  split at h
  · cases h; rw [Nat.mod_eq_of_lt (by assumption)]
  · split at h
    · cases h; rfl
    · cases h

/-- A block write that succeeds, of at most 4096 bytes so that no two addresses coincide, leaves byte k
at the address addr + k resolves to. -/
theorem State.byteAt_writeBytes (bs : List Byte) {s t : State} {addr : Nat}
    (h : s.writeBytes addr bs = .ok t) (hm : s.mem.wf s.cfg.font) (hl : bs.length ≤ 4096)
    (k : Nat) (hk : k < bs.length) (a : Nat) (ha : s.resolve (addr + k) = .ok a) :
    t.byteAt a = bs.getD k 0 := by
  induction bs generalizing s addr k with
  | nil => simp at hk
  | cons b bs ih =>
    simp only [List.length_cons] at hl hk
    rw [State.writeBytes] at h
    have hw := s.memWrite_spec addr b
    split at h
    · cases h
    · rename_i u hu
      rw [hu] at hw
      obtain ⟨a0, ha0, rfl⟩ := hw
      have hres : (s.setMem (s.mem.put s.cfg.font a0 b)).resolve = s.resolve := State.resolve_congr rfl
      cases k with
      | succ k =>
        rw [show addr + (k + 1) = addr + 1 + k by omega, ← hres] at ha
        simpa using ih h (Memory.put_wf _ _ _ _ (State.resolve_lt ha0) hm) (by omega) k (by omega) ha
      | zero =>
        obtain rfl : a0 = a := by rw [Nat.add_zero, ha0] at ha; exact Except.ok.inj ha
        rw [State.byteAt_writeBytes_other bs h a0, State.byteAt_put s hm]
        · simp
        · intro k hk hka
          rw [hres] at hka
          have e0 := State.resolve_eq_mod ha0
          have e1 := State.resolve_eq_mod hka
          omega

end Sys2Proof.Machine
end

