-- ==== Sys2Proof/Laws/PerInstr.lean ====
section
/-! SUPPORT. One family of statements, proved for every constructor of Instr: the word the encoder gives
lies in the instruction's row of the opcode map (30_encoding.md R75, R76). -/

namespace Sys2Proof.Laws

/-- Bits can be compared one by one. -/
theorem word_ext {a b : Word} (h : ∀ k, k < 16 → a.getLsbD k = b.getLsbD k) : a = b :=
  BitVec.eq_of_getLsbD_eq h

/-- The op nibble of a word with nnn. -/
theorem and_wordNNN (op : BitVec 4) (nnn : Addr12) : wordNNN op nnn &&& 0xF000 = wordNNN op 0 := by
  apply word_ext
  intro k hk
  simp only [wordNNN, BitVec.getLsbD_and, BitVec.getLsbD_append]
  interval_cases k <;> simp

/-- The op nibble of a word with x and nn. -/
theorem and_wordXNN_op (op x : BitVec 4) (nn : Byte) :
    wordXNN op x nn &&& 0xF000 = wordXNN op 0 0 := by
  apply word_ext
  intro k hk
  simp only [wordXNN, BitVec.getLsbD_and, BitVec.getLsbD_append]
  interval_cases k <;> simp

/-- The op nibble and the low byte of a word with x. -/
theorem and_wordXNN (op x : BitVec 4) (nn : Byte) :
    wordXNN op x nn &&& 0xF0FF = wordXNN op 0 nn := by
  apply word_ext
  intro k hk
  simp only [wordXNN, BitVec.getLsbD_and, BitVec.getLsbD_append]
  interval_cases k <;> simp

/-- The op nibble of a word with x, y and n. -/
theorem and_wordXYN_op (op x y n : BitVec 4) :
    wordXYN op x y n &&& 0xF000 = wordXYN op 0 0 0 := by
  apply word_ext
  intro k hk
  simp only [wordXYN, BitVec.getLsbD_and, BitVec.getLsbD_append]
  interval_cases k <;> simp

/-- The outer nibbles of a word with x and y. -/
theorem and_wordXYN (op x y n : BitVec 4) :
    wordXYN op x y n &&& 0xF00F = wordXYN op 0 0 n := by
  apply word_ext
  intro k hk
  simp only [wordXYN, BitVec.getLsbD_and, BitVec.getLsbD_append]
  interval_cases k <;> simp

/-- The word of i matches its row, and the row is one of the opcode map. -/
def EncodeMatchesItsRow.Statement (i : Instr) : Prop :=
  encode i &&& i.row.1 = i.row.2 ∧ i.row ∈ opcodeMap

theorem EncodeMatchesItsRow.cls : EncodeMatchesItsRow.Statement .cls :=
  ⟨by decide, by simp [Instr.row, opcodeMap]⟩

theorem EncodeMatchesItsRow.ret : EncodeMatchesItsRow.Statement .ret :=
  ⟨by decide, by simp [Instr.row, opcodeMap]⟩

theorem EncodeMatchesItsRow.jp (nnn : Addr12) : EncodeMatchesItsRow.Statement (.jp nnn) :=
  ⟨(and_wordNNN _ _).trans rfl, by simp [Instr.row, opcodeMap]⟩

theorem EncodeMatchesItsRow.call (nnn : Addr12) : EncodeMatchesItsRow.Statement (.call nnn) :=
  ⟨(and_wordNNN _ _).trans rfl, by simp [Instr.row, opcodeMap]⟩

theorem EncodeMatchesItsRow.seImm (x : RegIdx) (nn : Byte) : EncodeMatchesItsRow.Statement (.seImm x nn) :=
  ⟨(and_wordXNN_op _ _ _).trans rfl, by simp [Instr.row, opcodeMap]⟩

theorem EncodeMatchesItsRow.sneImm (x : RegIdx) (nn : Byte) : EncodeMatchesItsRow.Statement (.sneImm x nn) :=
  ⟨(and_wordXNN_op _ _ _).trans rfl, by simp [Instr.row, opcodeMap]⟩

theorem EncodeMatchesItsRow.seReg (x y : RegIdx) : EncodeMatchesItsRow.Statement (.seReg x y) :=
  ⟨(and_wordXYN _ _ _ _).trans rfl, by simp [Instr.row, opcodeMap]⟩

theorem EncodeMatchesItsRow.ldImm (x : RegIdx) (nn : Byte) : EncodeMatchesItsRow.Statement (.ldImm x nn) :=
  ⟨(and_wordXNN_op _ _ _).trans rfl, by simp [Instr.row, opcodeMap]⟩

theorem EncodeMatchesItsRow.addImm (x : RegIdx) (nn : Byte) : EncodeMatchesItsRow.Statement (.addImm x nn) :=
  ⟨(and_wordXNN_op _ _ _).trans rfl, by simp [Instr.row, opcodeMap]⟩

theorem EncodeMatchesItsRow.ldReg (x y : RegIdx) : EncodeMatchesItsRow.Statement (.ldReg x y) :=
  ⟨(and_wordXYN _ _ _ _).trans rfl, by simp [Instr.row, opcodeMap]⟩

theorem EncodeMatchesItsRow.orReg (x y : RegIdx) : EncodeMatchesItsRow.Statement (.orReg x y) :=
  ⟨(and_wordXYN _ _ _ _).trans rfl, by simp [Instr.row, opcodeMap]⟩

theorem EncodeMatchesItsRow.andReg (x y : RegIdx) : EncodeMatchesItsRow.Statement (.andReg x y) :=
  ⟨(and_wordXYN _ _ _ _).trans rfl, by simp [Instr.row, opcodeMap]⟩

theorem EncodeMatchesItsRow.xorReg (x y : RegIdx) : EncodeMatchesItsRow.Statement (.xorReg x y) :=
  ⟨(and_wordXYN _ _ _ _).trans rfl, by simp [Instr.row, opcodeMap]⟩

theorem EncodeMatchesItsRow.addReg (x y : RegIdx) : EncodeMatchesItsRow.Statement (.addReg x y) :=
  ⟨(and_wordXYN _ _ _ _).trans rfl, by simp [Instr.row, opcodeMap]⟩

theorem EncodeMatchesItsRow.subReg (x y : RegIdx) : EncodeMatchesItsRow.Statement (.subReg x y) :=
  ⟨(and_wordXYN _ _ _ _).trans rfl, by simp [Instr.row, opcodeMap]⟩

theorem EncodeMatchesItsRow.shr (x y : RegIdx) : EncodeMatchesItsRow.Statement (.shr x y) :=
  ⟨(and_wordXYN _ _ _ _).trans rfl, by simp [Instr.row, opcodeMap]⟩

theorem EncodeMatchesItsRow.subnReg (x y : RegIdx) : EncodeMatchesItsRow.Statement (.subnReg x y) :=
  ⟨(and_wordXYN _ _ _ _).trans rfl, by simp [Instr.row, opcodeMap]⟩

theorem EncodeMatchesItsRow.shl (x y : RegIdx) : EncodeMatchesItsRow.Statement (.shl x y) :=
  ⟨(and_wordXYN _ _ _ _).trans rfl, by simp [Instr.row, opcodeMap]⟩

theorem EncodeMatchesItsRow.sneReg (x y : RegIdx) : EncodeMatchesItsRow.Statement (.sneReg x y) :=
  ⟨(and_wordXYN _ _ _ _).trans rfl, by simp [Instr.row, opcodeMap]⟩

theorem EncodeMatchesItsRow.ldI (nnn : Addr12) : EncodeMatchesItsRow.Statement (.ldI nnn) :=
  ⟨(and_wordNNN _ _).trans rfl, by simp [Instr.row, opcodeMap]⟩

theorem EncodeMatchesItsRow.jpV0 (nnn : Addr12) : EncodeMatchesItsRow.Statement (.jpV0 nnn) :=
  ⟨(and_wordNNN _ _).trans rfl, by simp [Instr.row, opcodeMap]⟩

theorem EncodeMatchesItsRow.rnd (x : RegIdx) (nn : Byte) : EncodeMatchesItsRow.Statement (.rnd x nn) :=
  ⟨(and_wordXNN_op _ _ _).trans rfl, by simp [Instr.row, opcodeMap]⟩

theorem EncodeMatchesItsRow.drw (x y : RegIdx) (n : BitVec 4) : EncodeMatchesItsRow.Statement (.drw x y n) :=
  ⟨(and_wordXYN_op _ _ _ _).trans rfl, by simp [Instr.row, opcodeMap]⟩

theorem EncodeMatchesItsRow.skp (x : RegIdx) : EncodeMatchesItsRow.Statement (.skp x) :=
  ⟨(and_wordXNN _ _ _).trans rfl, by simp [Instr.row, opcodeMap]⟩

theorem EncodeMatchesItsRow.sknp (x : RegIdx) : EncodeMatchesItsRow.Statement (.sknp x) :=
  ⟨(and_wordXNN _ _ _).trans rfl, by simp [Instr.row, opcodeMap]⟩

theorem EncodeMatchesItsRow.ldVxDt (x : RegIdx) : EncodeMatchesItsRow.Statement (.ldVxDt x) :=
  ⟨(and_wordXNN _ _ _).trans rfl, by simp [Instr.row, opcodeMap]⟩

theorem EncodeMatchesItsRow.ldVxK (x : RegIdx) : EncodeMatchesItsRow.Statement (.ldVxK x) :=
  ⟨(and_wordXNN _ _ _).trans rfl, by simp [Instr.row, opcodeMap]⟩

theorem EncodeMatchesItsRow.ldDtVx (x : RegIdx) : EncodeMatchesItsRow.Statement (.ldDtVx x) :=
  ⟨(and_wordXNN _ _ _).trans rfl, by simp [Instr.row, opcodeMap]⟩

theorem EncodeMatchesItsRow.ldStVx (x : RegIdx) : EncodeMatchesItsRow.Statement (.ldStVx x) :=
  ⟨(and_wordXNN _ _ _).trans rfl, by simp [Instr.row, opcodeMap]⟩

theorem EncodeMatchesItsRow.addI (x : RegIdx) : EncodeMatchesItsRow.Statement (.addI x) :=
  ⟨(and_wordXNN _ _ _).trans rfl, by simp [Instr.row, opcodeMap]⟩

theorem EncodeMatchesItsRow.ldF (x : RegIdx) : EncodeMatchesItsRow.Statement (.ldF x) :=
  ⟨(and_wordXNN _ _ _).trans rfl, by simp [Instr.row, opcodeMap]⟩

theorem EncodeMatchesItsRow.ldB (x : RegIdx) : EncodeMatchesItsRow.Statement (.ldB x) :=
  ⟨(and_wordXNN _ _ _).trans rfl, by simp [Instr.row, opcodeMap]⟩

theorem EncodeMatchesItsRow.storeRegs (x : RegIdx) : EncodeMatchesItsRow.Statement (.storeRegs x) :=
  ⟨(and_wordXNN _ _ _).trans rfl, by simp [Instr.row, opcodeMap]⟩

theorem EncodeMatchesItsRow.loadRegs (x : RegIdx) : EncodeMatchesItsRow.Statement (.loadRegs x) :=
  ⟨(and_wordXNN _ _ _).trans rfl, by simp [Instr.row, opcodeMap]⟩

end Sys2Proof.Laws
end

