-- ==== Sys2Proof/Laws/Registers.lean ====
section
/-! SUPPORT. What register reads, register blocks, flags and the stack do. -/

namespace Sys2Proof.Machine

/-- A read after a register write. -/
theorem State.v_setV (s : State) (x j : RegIdx) (b : Byte) :
    (s.setV x b).v j = if j = x then b else s.v j := by
  by_cases h : j = x
  · subst h; simp [State.v, State.setV]
  · have : x.toNat ≠ j.toNat := fun hn => h (BitVec.eq_of_toNat_eq hn.symm)
    simp [State.v, State.setV, this, h]

@[simp] theorem State.v_setIndex (s : State) (a : Addr) : (s.setIndex a).v = s.v := rfl
@[simp] theorem State.v_setPc (s : State) (a : Addr) : (s.setPc a).v = s.v := rfl
@[simp] theorem State.v_advance (s : State) : s.advance.v = s.v := rfl
@[simp] theorem State.v_setDt (s : State) (b : Byte) : (s.setDt b).v = s.v := rfl
@[simp] theorem State.v_setSt (s : State) (b : Byte) : (s.setSt b).v = s.v := rfl
@[simp] theorem State.v_setFb (s : State) (fb : Framebuffer) : (s.setFb fb).v = s.v := rfl
@[simp] theorem State.v_setRun (s : State) (r : Run) : (s.setRun r).v = s.v := rfl
@[simp] theorem State.v_setSignals (s : State) (g : Signals) : (s.setSignals g).v = s.v := rfl
@[simp] theorem State.v_setMem (s : State) (m : Memory) : (s.setMem m).v = s.v := rfl
@[simp] theorem State.v_countDraw (s : State) : s.countDraw.v = s.v := rfl
@[simp] theorem State.v_setKey (s : State) (k : KeyIdx) (b : Bool) : (s.setKey k b).v = s.v := rfl
@[simp] theorem State.v_skipIf (s : State) (c : Bool) : (s.skipIf c).v = s.v := by cases c <;> rfl

/-- The key latch after a key write (60_exceptions.md R222). -/
theorem State.key_setKey (s : State) (k j : KeyIdx) (b : Bool) :
    (s.setKey k b).key j = if j = k then b else s.key j := by
  by_cases h : j = k
  · subst h; simp [State.key, State.setKey]
  · have : k.toNat ≠ j.toNat := fun hn => h (BitVec.eq_of_toNat_eq hn.symm)
    simp [State.key, State.setKey, this, h]

/-- The flag is what remains in VF (10_state.md R22). -/
theorem State.v_setFlag (s : State) (c : Bool) (j : RegIdx) :
    (s.setFlag c).v j = if j = 0xF then flagByte c else s.v j := s.v_setV 0xF j _

/-- A result and its flag (41_alu.md R133). -/
theorem State.v_setResult (s : State) (x : RegIdx) (r : Byte) (c : Bool) (j : RegIdx) :
    (s.setResult x r c).v j = if j = 0xF then flagByte c else if j = x then r else s.v j := by
  simp [State.setResult, State.v_setFlag, State.v_setV]

/-- Writing a register block changes the registers and nothing else. -/
theorem State.setRegBlock_rest (bs : List Byte) (s : State) (k : Nat) :
    s.setRegBlock k bs = { s with regs := (s.setRegBlock k bs).regs } := by
  induction bs generalizing s k with
  | nil => rfl
  | cons b bs ih => exact ih (s.setV (BitVec.ofNat 4 k) b) (k + 1)

/-- Byte j - k of the block lands in V[j]; the other registers are unchanged (42_index_memory.md R155). -/
theorem State.v_setRegBlock (bs : List Byte) (s : State) (k : Nat) (hk : k + bs.length ≤ 16) (j : RegIdx) :
    (s.setRegBlock k bs).v j =
      if k ≤ j.toNat ∧ j.toNat < k + bs.length then bs.getD (j.toNat - k) 0 else s.v j := by
  induction bs generalizing s k with
  | nil => simp [State.setRegBlock]
  | cons b bs ih =>
    simp only [List.length_cons] at hk
    rw [State.setRegBlock, ih _ _ (by omega), State.v_setV]
    have hj : j = BitVec.ofNat 4 k ↔ j.toNat = k := by
      constructor
      · rintro rfl; exact Nat.mod_eq_of_lt (by omega)
      · intro h; apply BitVec.eq_of_toNat_eq; simp; omega
    by_cases h1 : j.toNat = k
    · have h2 : ¬ (k + 1 ≤ j.toNat ∧ j.toNat < k + 1 + bs.length) := by omega
      have h3 : k ≤ j.toNat ∧ j.toNat < k + (b :: bs).length := by simp; omega
      rw [if_neg h2, if_pos (hj.2 h1), if_pos h3, h1]; simp
    · rw [if_neg (fun h => h1 (hj.1 h))]
      by_cases h2 : k + 1 ≤ j.toNat ∧ j.toNat < k + 1 + bs.length
      · have h3 : k ≤ j.toNat ∧ j.toNat < k + (b :: bs).length := by simp; omega
        rw [if_pos h2, if_pos h3]
        obtain ⟨d, hd⟩ : ∃ d, j.toNat - k = d + 1 := ⟨j.toNat - k - 1, by omega⟩
        rw [hd, show j.toNat - (k + 1) = d by omega]; simp
      · have h3 : ¬ (k ≤ j.toNat ∧ j.toNat < k + (b :: bs).length) := by simp; omega
        rw [if_neg h2, if_neg h3]

/-- The block V0..Vx has x + 1 bytes. -/
@[simp] theorem State.regBlock_length (s : State) (x : RegIdx) : (s.regBlock x).length = x.toNat + 1 := by
  simp [State.regBlock]

/-- Byte k of the block V0..Vx is V[k]. -/
theorem State.regBlock_getD (s : State) (x : RegIdx) (k : Nat) (hk : k ≤ x.toNat) :
    (s.regBlock x).getD k 0 = s.v (BitVec.ofNat 4 k) := by
  have : k < x.toNat + 1 := by omega
  simp [State.regBlock, List.getD, this]

/-- All a push can do (10_state.md R27). -/
theorem State.push_eq_some {s t : State} {a : Addr} (h : s.push a = some t) :
    s.sp < s.cfg.stackDepth ∧ t = { s with stack := s.stack.set s.sp a, sp := s.sp + 1 } := by
  unfold State.push at h
  split at h
  · cases h
  · exact ⟨by omega, (Option.some.inj h).symm⟩

/-- When a push finds no room (10_state.md R27). -/
theorem State.push_eq_none {s : State} {a : Addr} : s.push a = none ↔ s.cfg.stackDepth ≤ s.sp := by
  unfold State.push
  split <;> simp_all

/-- All a pop can do (10_state.md R28). -/
theorem State.pop_eq_some {s t : State} {a : Addr} (h : s.pop = some (a, t)) :
    ∃ k, s.sp = k + 1 ∧ a = s.stackEntry k ∧ t = { s with sp := k } := by
  unfold State.pop at h
  split at h
  · cases h
  · rename_i k hk
    simp only [Option.some.injEq, Prod.mk.injEq] at h
    exact ⟨k, hk, h.1.symm, h.2.symm⟩

/-- When a pop finds nothing (10_state.md R28). -/
theorem State.pop_eq_none {s : State} : s.pop = none ↔ s.sp = 0 := by
  unfold State.pop
  split <;> simp_all

/-- The pressed keys are the keys that are pressed. -/
theorem State.mem_pressedKeys (s : State) (k : KeyIdx) : k ∈ s.pressedKeys ↔ s.key k = true := by
  have all : ∀ j : KeyIdx, j ∈ ([0x0, 0x1, 0x2, 0x3, 0x4, 0x5, 0x6, 0x7, 0x8, 0x9, 0xA, 0xB, 0xC, 0xD,
      0xE, 0xF] : List KeyIdx) := by decide
  simp only [State.pressedKeys, List.mem_filter]
  exact ⟨fun h => h.2, fun h => ⟨all k, h⟩⟩

/-- A picked key is one of the keys. -/
theorem pickKey_mem (c : Nat) (k : KeyIdx) (ks : List KeyIdx) : pickKey c k ks ∈ k :: ks := by
  have h : c % (ks.length + 1) < (k :: ks).length := by
    simpa using Nat.mod_lt c (Nat.succ_pos ks.length)
  rw [pickKey, List.getD_eq_getElem _ _ h]
  exact List.getElem_mem h

/-- All a pick can answer (00_scope.md R10): a pressed key, and none only when none is pressed. -/
theorem State.pickPressedKey_spec (s : State) :
    match s.pickPressedKey with
    | some k => s.key k = true
    | none => ∀ k, s.key k = false := by
  unfold State.pickPressedKey
  cases h : s.pressedKeys with
  | nil =>
    intro k
    have := s.mem_pressedKeys k
    simp [h] at this
    simpa using this
  | cons k ks =>
    have := pickKey_mem (Config.pressedKeyChoice s.draws) k ks
    rw [← h] at this
    exact (s.mem_pressedKeys _).1 this

end Sys2Proof.Machine
end

