-- ==== Sys2Proof/Laws/Step.lean ====
section
/-! SUPPORT. What a step can do, and what raising a fatal error leaves. -/

namespace Sys2Proof.Machine

/-- The frame relation holds of a state and itself. -/
theorem Frame.refl (w : Writes) (s : State) : Frame w s s :=
  ⟨fun _ _ => rfl, fun _ => rfl, fun _ => ⟨rfl, rfl⟩, fun _ => rfl, fun _ => rfl, fun _ => rfl,
    fun _ => rfl, fun _ => rfl, fun _ _ => rfl, rfl, rfl⟩

/-- All a raise does (60_exceptions.md R213). -/
theorem raise_spec (s : State) (c : Cause) (w : Option Word) (addr : Option Nat) :
    ∃ t, raise s c w addr = .next t ∧ FaultsWith ⟨c, s.pc, w, addr⟩ s t :=
  ⟨_, rfl, rfl, rfl, rfl, fun _ _ => rfl, fun _ => rfl, fun _ => ⟨rfl, rfl⟩, fun _ => rfl, fun _ => rfl,
    fun _ => rfl, fun h => by simp at h, fun _ => rfl, fun _ _ => rfl, rfl, rfl⟩

/-- All a step can do (30_encoding.md R83). -/
theorem step_cases (s : State) :
    (∃ r, s.run = .faulted r ∧ step s = .next s) ∨
    (∃ x, s.run = .awaitKey x ∧ step s = awaitKeyStep x s) ∨
    (s.run = .running ∧
      ((∃ addr, s.fetch = .error addr ∧ step s = raise s .memoryOutOfBounds none (some addr)) ∨
       ∃ w, s.fetch = .ok w ∧
        ((∃ i, decode w = .ok i ∧ step s = exec i s) ∨
         ∃ e, decode w = .error e ∧ step s = unknownWord w s))) := by
  unfold step
  cases hr : s.run with
  | faulted r => exact .inl ⟨r, rfl, rfl⟩
  | awaitKey x => exact .inr (.inl ⟨x, rfl, rfl⟩)
  | running =>
    refine .inr (.inr ⟨rfl, ?_⟩)
    cases hf : s.fetch with
    | error addr => exact .inl ⟨addr, rfl, rfl⟩
    | ok w =>
      refine .inr ⟨w, rfl, ?_⟩
      cases hd : decode w with
      | ok i => exact .inl ⟨i, rfl, by simp only [hd]⟩
      | error e => exact .inr ⟨e, rfl, by simp only [hd]⟩

/-- The fetch of a word in bounds, or under Wrap (30_encoding.md R72). -/
theorem State.fetch_ok (s : State) (h : s.pc.toNat + 1 < 4096 ∨ s.cfg.oobPolicy = .wrap) :
    s.fetch = .ok (wordOfBytes (s.byteAt (s.pc.toNat % 4096)) (s.byteAt ((s.pc.toNat + 1) % 4096))) := by
  have h0 : s.pc.toNat < 4096 ∨ s.cfg.oobPolicy = .wrap := h.imp (by omega) id
  simp [State.fetch, State.memRead_ok (State.resolve_ok h0), State.memRead_ok (State.resolve_ok h)]

/-- The fetch that leaves `mem` under Fatal (30_encoding.md R72). -/
theorem State.fetch_error (s : State) (hf : s.cfg.oobPolicy = .fatal) (h : 4095 ≤ s.pc.toNat) :
    s.fetch = .error (max s.pc.toNat 4096) := by
  unfold State.fetch
  by_cases hp : s.pc.toNat = 4095
  · have h1 : s.memRead (s.pc.toNat + 1) = .error 4096 := by
      simp [State.memRead, State.resolve_error hf, hp]
    rw [State.memRead_ok (State.resolve_ok (.inl (by omega))), h1, hp]
    rfl
  · have h0 : s.memRead s.pc.toNat = .error s.pc.toNat := by
      have : s.resolve s.pc.toNat = .error s.pc.toNat := State.resolve_error hf (by omega)
      simp [State.memRead, this]
    rw [h0, show max s.pc.toNat 4096 = s.pc.toNat by omega]

/-- A fetch fails only under Fatal, on an address of 4096 or more (60_exceptions.md R210). -/
theorem State.fetch_eq_error {s : State} {addr : Nat} (h : s.fetch = .error addr) :
    4096 ≤ addr ∧ s.cfg.oobPolicy = .fatal := by
  unfold State.fetch at h
  split at h
  · rename_i e he
    cases h
    obtain ⟨rfl, h1, h2⟩ := State.memRead_eq_error he
    exact ⟨h1, h2⟩
  · split at h
    · rename_i e he
      cases h
      obtain ⟨rfl, h1, h2⟩ := State.memRead_eq_error he
      exact ⟨h1, h2⟩
    · cases h

/-- Whether a block resolves depends on I and Config only. -/
theorem State.blockResolves_congr {s t : State} (hi : t.index = s.index) (hc : t.cfg = s.cfg) (n : Nat) :
    t.blockResolves n = s.blockResolves n := by
  rw [Bool.eq_iff_iff, State.blockResolves_iff, State.blockResolves_iff, hi, hc]

/-- The condition of an error depends on I, SP and Config only (60_exceptions.md R210). -/
theorem causeOf_congr {s t : State} (hi : t.index = s.index) (hs : t.sp = s.sp) (hc : t.cfg = s.cfg)
    (i : Instr) : causeOf t i = causeOf s i := by
  cases i <;> simp [causeOf, State.blockResolves_congr hi hc, hs, hc]

/-- A record stays true as long as memory, I, pc, SP and Config stay. -/
theorem State.recordTrue_congr {s t : State} (hm : t.mem = s.mem) (hi : t.index = s.index)
    (hp : t.pc = s.pc) (hs : t.sp = s.sp) (hc : t.cfg = s.cfg) (r : FaultRecord) :
    t.recordTrue r ↔ s.recordTrue r := by
  simp only [State.recordTrue, State.fetch_congr hm hc hp, causeOf_congr hi hs hc, hi, hp, hc]

/-- So does what the run state says. -/
theorem State.runTrue_congr {s t : State} (hm : t.mem = s.mem) (hi : t.index = s.index) (hp : t.pc = s.pc)
    (hs : t.sp = s.sp) (hc : t.cfg = s.cfg) (hr : t.run = s.run) : t.runTrue ↔ s.runTrue := by
  simp only [State.runTrue, hr, State.fetch_congr hm hc hp, State.recordTrue_congr hm hi hp hs hc]

end Sys2Proof.Machine
end

