-- ==== Sys2Proof/Laws/Transactions.lean ====
section
/-! SUPPORT. What `construct`, a tick and a transaction can do. -/

namespace Sys2Proof.Machine

/-- A ROM that fits: `construct` writes it into the initial state's memory (70_reset_and_hazards.md R242). -/
theorem State.construct_fits (cfg : Config) (rom : List Byte) (h : rom.length ≤ 3584) :
    (State.initial cfg).writeBytes 0x200 rom = .ok (State.construct cfg rom) := by
  obtain ⟨t, ht⟩ := State.writeBytes_ok rom (State.initial cfg) 0x200 (.inr (.inl (by omega)))
  have hc : State.construct cfg rom = t := by
    unfold State.construct State.loadRom
    rw [if_neg (show ¬ maxRom < rom.length by unfold maxRom; omega)]
    simp only [programStart, ht]
  rw [hc, ht]

/-- A ROM that does not fit: `construct` changes the run state of the initial state only
(70_reset_and_hazards.md R243). -/
theorem State.construct_oversized (cfg : Config) (rom : List Byte) (h : 3584 < rom.length) :
    State.construct cfg rom =
      (State.initial cfg).setRun (.faulted ⟨.romTooLarge, 0x200, none, some (0x200 + rom.length)⟩) := by
  unfold State.construct State.loadRom
  exact if_pos (show maxRom < rom.length by unfold maxRom; omega)

/-- A timer count on naturals (60_exceptions.md R219). -/
@[simp] theorem countDown_toNat (b : Byte) : (countDown b).toNat = b.toNat - 1 := by
  simp [countDown]; omega

/-- A write of memory does not meet the timers. -/
theorem State.writeBytes_tick (bs : List Byte) (s : State) (addr : Nat) :
    s.tick.writeBytes addr bs = (s.writeBytes addr bs).map State.tick := by
  induction bs generalizing s addr with
  | nil => rfl
  | cons b bs ih =>
    have h : s.tick.memWrite addr b = (s.memWrite addr b).map State.tick := by
      unfold State.memWrite
      rw [State.resolve_congr (s := s) (t := s.tick) rfl]
      cases s.resolve addr <;> rfl
    simp only [State.writeBytes, h]
    cases s.memWrite addr b with
    | error e => rfl
    | ok t => exact ih t (addr + 1)

/-- A write of registers does not meet the timers. -/
theorem State.setRegBlock_tick (bs : List Byte) (s : State) (k : Nat) :
    s.tick.setRegBlock k bs = (s.setRegBlock k bs).tick := by
  induction bs generalizing s k with
  | nil => rfl
  | cons b bs ih => exact ih (s.setV (BitVec.ofNat 4 k) b) (k + 1)

/-- All a transaction can do (10_state.md R40): construct, make a step, count the timers, write a key, or
only read. -/
theorem transact_cases {tr : Transaction} {s t : State} {r : Response} (h : transact tr s = .next (t, r)) :
    (∃ cfg rom, tr = .construct cfg rom ∧ t = { State.construct cfg rom with draws := s.draws } ∧
      r = (State.construct cfg rom).constructResponse) ∨
    (tr = .step ∧ step s = .next t ∧ r = .step t.stepResult) ∨
    (tr = .tickTimers ∧ t = s.tick ∧ r = .none) ∨
    (∃ k b, tr = .setKey k b ∧ t = s.setKey k b ∧ r = .none) ∨
    t = s := by
  cases tr with
  | construct cfg rom => cases h; exact .inl ⟨cfg, rom, rfl, rfl, rfl⟩
  | step =>
    cases hs : step s with
    | next u => simp only [transact, hs] at h; cases h; exact .inr (.inl ⟨rfl, rfl, rfl⟩)
    | fault f => simp only [transact, hs] at h; cases h
    | refused f => simp only [transact, hs] at h; cases h
  | tickTimers => cases h; exact .inr (.inr (.inl ⟨rfl, rfl, rfl⟩))
  | setKey k b => cases h; exact .inr (.inr (.inr (.inl ⟨k, b, rfl, rfl, rfl⟩)))
  | readFb => cases h; exact .inr (.inr (.inr (.inr rfl)))
  | soundActive => cases h; exact .inr (.inr (.inr (.inr rfl)))
  | status => cases h; exact .inr (.inr (.inr (.inr rfl)))

end Sys2Proof.Machine
end

