-- ==== Sys2Proof/Tests/Slice0.lean ====
section
/-! SUPPORT. The model's own tests: what WellFormed refuses, a decoding for every constructor, the spec's
test vectors (95_test_vectors.md) one step at a time, and a witness for the hypotheses of each statement. -/

namespace Sys2Proof.Tests

open Sys2Proof.Machine

/-! ### WellFormed and the canonical form refuse -/

theorem test_wf_default : Config.default.wf = true := by decide
theorem test_wf_refuses_short_stack : Config.wf { Config.default with stackDepth := 11 } = false := by decide
theorem test_wf_refuses_long_stack : Config.wf { Config.default with stackDepth := 17 } = false := by decide
theorem test_memory_refuses_disorder : ¬ Memory.wf Font.standard [(3, 1), (2, 1)] := by decide
theorem test_memory_refuses_a_repeat : ¬ Memory.wf Font.standard [(3, 1), (3, 2)] := by decide
theorem test_memory_refuses_the_reset_byte : ¬ Memory.wf Font.standard [(0x050, 0xF0)] := by decide
theorem test_memory_refuses_4096 : ¬ Memory.wf Font.standard [(4096, 1)] := by decide
/-- Writing the reset value removes the entry. -/
theorem test_memory_put_removes : Memory.put Font.standard [(3, 1), (0x300, 7)] 0x300 0 = [(3, 1)] := by decide

/-! ### Every constructor's word, bit by bit from the encoding of spec/opcode_table.json -/

theorem test_decode_cls : decode 0b0000000011100000 = .ok .cls := by decide
theorem test_decode_ret : decode 0b0000000011101110 = .ok .ret := by decide
theorem test_decode_jp : decode 0b0001100110100101 = .ok (.jp 0x9A5) := by decide
theorem test_decode_call : decode 0b0010100110100101 = .ok (.call 0x9A5) := by decide
theorem test_decode_seImm : decode 0b0011100110100111 = .ok (.seImm 0x9 0xA7) := by decide
theorem test_decode_sneImm : decode 0b0100100110100111 = .ok (.sneImm 0x9 0xA7) := by decide
theorem test_decode_seReg : decode 0b0101100101100000 = .ok (.seReg 0x9 0x6) := by decide
theorem test_decode_ldImm : decode 0b0110100110100111 = .ok (.ldImm 0x9 0xA7) := by decide
theorem test_decode_addImm : decode 0b0111100110100111 = .ok (.addImm 0x9 0xA7) := by decide
theorem test_decode_ldReg : decode 0b1000100101100000 = .ok (.ldReg 0x9 0x6) := by decide
theorem test_decode_orReg : decode 0b1000100101100001 = .ok (.orReg 0x9 0x6) := by decide
theorem test_decode_andReg : decode 0b1000100101100010 = .ok (.andReg 0x9 0x6) := by decide
theorem test_decode_xorReg : decode 0b1000100101100011 = .ok (.xorReg 0x9 0x6) := by decide
theorem test_decode_addReg : decode 0b1000100101100100 = .ok (.addReg 0x9 0x6) := by decide
theorem test_decode_subReg : decode 0b1000100101100101 = .ok (.subReg 0x9 0x6) := by decide
theorem test_decode_shr : decode 0b1000100101100110 = .ok (.shr 0x9 0x6) := by decide
theorem test_decode_subnReg : decode 0b1000100101100111 = .ok (.subnReg 0x9 0x6) := by decide
theorem test_decode_shl : decode 0b1000100101101110 = .ok (.shl 0x9 0x6) := by decide
theorem test_decode_sneReg : decode 0b1001100101100000 = .ok (.sneReg 0x9 0x6) := by decide
theorem test_decode_ldI : decode 0b1010100110100101 = .ok (.ldI 0x9A5) := by decide
theorem test_decode_jpV0 : decode 0b1011100110100101 = .ok (.jpV0 0x9A5) := by decide
theorem test_decode_rnd : decode 0b1100100110100111 = .ok (.rnd 0x9 0xA7) := by decide
theorem test_decode_drw : decode 0b1101100101101100 = .ok (.drw 0x9 0x6 0xC) := by decide
theorem test_decode_skp : decode 0b1110100110011110 = .ok (.skp 0x9) := by decide
theorem test_decode_sknp : decode 0b1110100110100001 = .ok (.sknp 0x9) := by decide
theorem test_decode_ldVxDt : decode 0b1111100100000111 = .ok (.ldVxDt 0x9) := by decide
theorem test_decode_ldVxK : decode 0b1111100100001010 = .ok (.ldVxK 0x9) := by decide
theorem test_decode_ldDtVx : decode 0b1111100100010101 = .ok (.ldDtVx 0x9) := by decide
theorem test_decode_ldStVx : decode 0b1111100100011000 = .ok (.ldStVx 0x9) := by decide
theorem test_decode_addI : decode 0b1111100100011110 = .ok (.addI 0x9) := by decide
theorem test_decode_ldF : decode 0b1111100100101001 = .ok (.ldF 0x9) := by decide
theorem test_decode_ldB : decode 0b1111100100110011 = .ok (.ldB 0x9) := by decide
theorem test_decode_storeRegs : decode 0b1111100101010101 = .ok (.storeRegs 0x9) := by decide
theorem test_decode_loadRegs : decode 0b1111100101100101 = .ok (.loadRegs 0x9) := by decide

-- 95_test_vectors.md E3 to E11: unknown words
theorem test_decode_refuses_0123 : decode 0x0123 = .error (.unknownOpcode 0x0123) := by decide
theorem test_decode_refuses_01E0 : decode 0x01E0 = .error (.unknownOpcode 0x01E0) := by decide
theorem test_decode_refuses_5121 : decode 0x5121 = .error (.unknownOpcode 0x5121) := by decide
theorem test_decode_refuses_9121 : decode 0x9121 = .error (.unknownOpcode 0x9121) := by decide
theorem test_decode_refuses_812D : decode 0x812D = .error (.unknownOpcode 0x812D) := by decide
theorem test_decode_refuses_E19F : decode 0xE19F = .error (.unknownOpcode 0xE19F) := by decide
theorem test_decode_refuses_F1FF : decode 0xF1FF = .error (.unknownOpcode 0xF1FF) := by decide

theorem test_decodeBytes_order : decodeBytes [0x12, 0x34, 0x56] = .ok (.jp 0x234, [0x56]) := by decide
theorem test_decodeBytes_truncated : decodeBytes [0x12] = .error .truncated := by decide
theorem test_decodeTableWord : decodeTableWord 16 0xD125 = some (.drw 1 2 5) := by decide
theorem test_encode_drw : encode (.drw 0x1 0x2 0x5) = 0xD125 := by decide

/-! ### One step from a small state -/

/-- A field of the next state. -/
def after {α : Type} (get : State → α) : StepOutcome → Option α
  | .next t => some (get t)
  | .fault _ => none
  | .refused _ => none

/-- One step of `s` with the word `w` placed at pc. -/
def run1 (s : State) (w : Nat) : StepOutcome := step (s.withFetchWord 16 w)

/-- The reset state with Config `c` and registers V1 and V2. -/
def with12 (c : Config) (v1 v2 : Byte) : State := ((State.initial c).setV 1 v1).setV 2 v2

/-- The reset state with V1, V2 and VF = 0x55. -/
def flag55 (v1 v2 : Byte) : State := (with12 Config.default v1 v2).setV 0xF 0x55

/-- V1, VF and pc. -/
def v1FlagPc (t : State) : Byte × Byte × Addr := (t.v 1, t.v 0xF, t.pc)

/-- The default Config with OOB_POLICY = Wrap. -/
def wrapCfg : Config := { Config.default with oobPolicy := .wrap }

/-- The default Config with SHIFT_SRC = VY. -/
def vyCfg : Config := { Config.default with shiftSrc := .vy }

/-- The default Config with FX1E_SETS_VF = true. -/
def fx1eCfg : Config := { Config.default with fx1eSetsVf := true }

/-- The default Config with JUMP_OFFSET = VX. -/
def vxCfg : Config := { Config.default with jumpOffset := .vx }

/-- The default Config with UNKNOWN_POLICY = NoOp. -/
def noOpCfg : Config := { Config.default with unknownPolicy := .noOp }

/-- The reset state under `c` with I = a. -/
def atIndex (c : Config) (a : Addr) : State := (State.initial c).setIndex a

/-- The reset state under `c` with `sp` entries on the stack. -/
def withSp (c : Config) (sp : Nat) : State := { State.initial c with sp := sp }

-- fetch and unknown words, E1 to E18
theorem test_fetch_big_endian : (State.reset.withFetchWord 16 0x1234).byteAt 0x200 = 0x12 := by decide
theorem test_unknown_fatal : after State.stepResult (step State.reset) =
    some (.fatal ⟨.unknownOpcode, 0x200, some 0, none⟩) := by decide
theorem test_unknown_noOp : after (fun t => (t.pc, t.signals)) (run1 (State.initial noOpCfg) 0x0123) =
    some (0x202, ⟨false, some ⟨0x200, 0x0123⟩, false⟩) := by decide
theorem test_fetch_fault_second_byte : after State.stepResult (step (State.reset.setPc 0xFFF)) =
    some (.fatal ⟨.memoryOutOfBounds, 0xFFF, none, some 0x1000⟩) := by decide
theorem test_fetch_fault_first_byte : after State.stepResult (step (State.reset.setPc 0x1002)) =
    some (.fatal ⟨.memoryOutOfBounds, 0x1002, none, some 0x1002⟩) := by decide
theorem test_fetch_wraps : after (fun t => (t.v 0, t.pc)) (run1 ((State.initial wrapCfg).setPc 0xFFFE) 0x6001) =
    some (0x01, 0x0000) := by decide

-- control transfer, C1 to C24
theorem test_ret : after (fun t => (t.pc, t.sp))
    (run1 { State.reset with pc := 0x300, sp := 1, stack := State.reset.stack.set 0 0x202 } 0x00EE) =
    some (0x202, 0) := by decide
theorem test_ret_underflow : after State.stepResult (run1 State.reset 0x00EE) =
    some (.fatal ⟨.stackUnderflow, 0x200, some 0x00EE, none⟩) := by decide
theorem test_jp : after State.pc (run1 State.reset 0x1ABC) = some 0xABC := by decide
theorem test_call_last_entry : after (fun t => (t.stackEntry 15, t.sp, t.pc))
    (run1 (withSp Config.default 15) 0x2300) = some (0x202, 16, 0x300) := by decide
theorem test_call_overflow : after (fun t => (t.stepResult, t.sp, t.pc)) (run1 (withSp Config.default 16) 0x2300) =
    some (.fatal ⟨.stackOverflow, 0x200, some 0x2300, none⟩, 16, 0x200) := by decide
theorem test_seImm : after State.pc (run1 (State.reset.setV 3 0x42) 0x3342) = some 0x204 := by decide
theorem test_seImm_not : after State.pc (run1 (State.reset.setV 3 0x42) 0x3343) = some 0x202 := by decide
theorem test_sneImm : after State.pc (run1 (State.reset.setV 3 0x42) 0x4343) = some 0x204 := by decide
theorem test_sneImm_not : after State.pc (run1 (State.reset.setV 3 0x42) 0x4342) = some 0x202 := by decide
theorem test_seReg : after State.pc (run1 (with12 Config.default 7 7) 0x5120) = some 0x204 := by decide
theorem test_seReg_not : after State.pc (run1 (with12 Config.default 7 8) 0x5120) = some 0x202 := by decide
theorem test_sneReg : after State.pc (run1 (with12 Config.default 7 8) 0x9120) = some 0x204 := by decide
theorem test_sneReg_not : after State.pc (run1 (with12 Config.default 7 7) 0x9120) = some 0x202 := by decide
theorem test_jpV0 : after State.pc (run1 (State.reset.setV 0 0xFF) 0xBFFF) = some 0x10FE := by decide
theorem test_jpV0_quirk : after State.pc
    (run1 (((State.initial vxCfg).setV 0 0x10).setV 3 0x05) 0xB310) = some 0x315 := by decide

-- loads and ALU, A1 to A32
theorem test_ldImm : after (fun t => t.v 0xA) (run1 State.reset 0x6A7B) = some 0x7B := by decide
theorem test_addImm : after v1FlagPc (run1 (flag55 0xFF 0) 0x7102) = some (0x01, 0x55, 0x202) := by decide
theorem test_ldReg : after v1FlagPc (run1 (flag55 0x00 0x33) 0x8120) = some (0x33, 0x55, 0x202) := by decide
theorem test_orReg : after v1FlagPc (run1 (flag55 0xF0 0x0F) 0x8121) = some (0xFF, 0x55, 0x202) := by decide
theorem test_andReg : after v1FlagPc (run1 (flag55 0xF0 0x3C) 0x8122) = some (0x30, 0x55, 0x202) := by decide
theorem test_xorReg : after v1FlagPc (run1 (flag55 0xF0 0x3C) 0x8123) = some (0xCC, 0x55, 0x202) := by decide
theorem test_addReg : after v1FlagPc (run1 (with12 Config.default 0x80 0x80) 0x8124) =
    some (0x00, 0x01, 0x202) := by decide
theorem test_addReg_flag_last : after v1FlagPc (run1 ((with12 Config.default 1 0).setV 0xF 0xFF) 0x8F14) =
    some (0x01, 0x01, 0x202) := by decide
theorem test_subReg : after v1FlagPc (run1 (with12 Config.default 0x03 0x05) 0x8125) =
    some (0xFE, 0x00, 0x202) := by decide
theorem test_subReg_equal : after v1FlagPc (run1 (with12 Config.default 0x07 0x07) 0x8125) =
    some (0x00, 0x01, 0x202) := by decide
theorem test_shr : after v1FlagPc (run1 (with12 Config.default 0x05 0) 0x8106) =
    some (0x02, 0x01, 0x202) := by decide
theorem test_shr_quirk : after v1FlagPc (run1 (with12 vyCfg 0x05 0x08) 0x8126) =
    some (0x04, 0x00, 0x202) := by decide
theorem test_subnReg : after v1FlagPc (run1 (with12 Config.default 0x03 0x05) 0x8127) =
    some (0x02, 0x01, 0x202) := by decide
theorem test_subnReg_borrow : after v1FlagPc (run1 (with12 Config.default 0x05 0x03) 0x8127) =
    some (0xFE, 0x00, 0x202) := by decide
theorem test_shl : after v1FlagPc (run1 (with12 Config.default 0x81 0) 0x810E) =
    some (0x02, 0x01, 0x202) := by decide
theorem test_shl_quirk : after v1FlagPc (run1 (with12 vyCfg 0x00 0x80) 0x812E) =
    some (0x00, 0x01, 0x202) := by decide
/-- A30: the draw is an argument, the free value aside. -/
theorem test_rnd : after (fun t => t.v 3) (execRndWith 0xA7 3 0x0F State.reset) = some 0x07 := by decide

-- index register and memory, M1 to M22
theorem test_ldI : after State.index (run1 State.reset 0xA123) = some 0x123 := by decide
theorem test_addI : after (fun t => (t.index, t.v 0xF)) (run1 (((atIndex Config.default 0xFFF).setV 2 1).setV 0xF 0x55)
    0xF21E) = some (0x1000, 0x55) := by decide
theorem test_addI_quirk : after (fun t => (t.index, t.v 0xF)) (run1 ((atIndex fx1eCfg 0xFFFF).setV 2 1) 0xF21E) =
    some (0x0000, 0x01) := by decide
theorem test_ldF : after State.index (run1 (State.reset.setV 0 0xFF) 0xF029) = some 0x54B := by decide
theorem test_ldB : after (fun t => (t.mem.filter (fun c => c.1 ≠ 0x200 ∧ c.1 ≠ 0x201), t.index))
    (run1 ((atIndex Config.default 0x300).setV 5 0x7B) 0xF533) =
    some ([(0x300, 1), (0x301, 2), (0x302, 3)], 0x300) := by decide
theorem test_ldB_wraps : after (fun t => [t.byteAt 0xFFF, t.byteAt 0, t.byteAt 1])
    (run1 ((atIndex wrapCfg 0xFFF).setV 0 0xFF) 0xF033) = some [2, 5, 5] := by decide
theorem test_storeRegs_only_v0 : after (fun t => [t.byteAt 0x300, t.byteAt 0x301])
    (run1 (((atIndex Config.default 0x300).setV 0 0xAA).setV 1 0xBB) 0xF055) = some [0xAA, 0] := by decide
theorem test_storeRegs_fault : after (fun t => (t.stepResult, t.byteAt 0xFFD))
    (run1 ((atIndex Config.default 0xFFD).setV 0 1) 0xF355) =
    some (.fatal ⟨.memoryOutOfBounds, 0x200, some 0xF355, some 0x1000⟩, 0) := by decide
/-- The glyph of digit 0 (20_memory.md R55), and V3 kept. -/
theorem test_loadRegs : after (fun t => [t.v 0, t.v 1, t.v 2, t.v 3])
    (run1 ((atIndex Config.default 0x050).setV 3 0x77) 0xF265) = some [0xF0, 0x90, 0x90, 0x77] := by decide
theorem test_loadRegs_fault : after State.stepResult (run1 (atIndex Config.default 0x1000) 0xF065) =
    some (.fatal ⟨.memoryOutOfBounds, 0x200, some 0xF065, some 0x1000⟩) := by decide

-- display, D1 to D13
/-- A framebuffer with one pixel set. -/
def onePixel (y x : Nat) : Framebuffer := Framebuffer.clear.flip y x

theorem test_cls : after (fun t => (decide (t.fb = Framebuffer.clear), t.signals.draw, t.v 0xF))
    (run1 ((flag55 0 0).setFb (onePixel 31 63)) 0x00E0) = some (true, true, 0x55) := by decide
/-- D6: row 1 of the sprite and the columns from 64 on are clipped. -/
theorem test_drw_clips : after (fun t => (decide (t.fb = (onePixel 31 62).flip 31 63), t.v 0xF))
    (run1 (((atIndex Config.default 0x050).setV 0 0x7E).setV 1 0x3F) 0xD012) = some (true, 0) := by decide
/-- D4, with the first row 0xF0 of glyph 0 at (2, 0): columns 3 to 5 are set and column 2 is cleared. -/
theorem test_drw_collides : after (fun t => (t.fb.pixel 0 2, t.fb.pixel 0 3, t.fb.pixel 0 6, t.v 0xF))
    (run1 (((atIndex Config.default 0x050).setV 0 2).setFb (onePixel 0 2)) 0xD011) =
    some (false, true, false, 1) := by decide

-- keys and timers, K1 to K20
theorem test_skp : after State.pc (run1 ((State.reset.setV 4 0x1C).setKey 0xC true) 0xE49E) = some 0x204 := by
  decide
theorem test_skp_not : after State.pc (run1 (State.reset.setV 4 0x0C) 0xE49E) = some 0x202 := by decide
theorem test_sknp : after State.pc (run1 (State.reset.setV 4 0x0C) 0xE4A1) = some 0x204 := by decide
theorem test_sknp_not : after State.pc (run1 ((State.reset.setV 4 0x0C).setKey 0xC true) 0xE4A1) = some 0x202 := by
  decide
theorem test_ldVxDt : after (fun t => t.v 1) (run1 (State.reset.setDt 0x3C) 0xF107) = some 0x3C := by decide
theorem test_ldDtVx : after (fun t => (t.dt, t.st)) (run1 (State.reset.setV 1 0x3C) 0xF115) = some (0x3C, 0) := by
  decide
theorem test_ldStVx : after (fun t => (t.st, t.dt, t.soundActive)) (run1 (State.reset.setV 1 2) 0xF118) =
    some (2, 0, true) := by decide
/-- K11. -/
theorem test_ldVxK_waits : after (fun t => (t.run, t.pc, t.signals.awaiting)) (run1 (State.reset.setPc 0x208) 0xF50A) =
    some (.awaitKey 5, 0x208, true) := by decide
/-- K10 and K13: the one pressed key is picked, whatever the choice. -/
theorem test_pick_one : ∀ c, pickKey c 7 [] = 7 := by intro c; simp [pickKey, Nat.mod_one]
theorem test_ldVxK_completes : after (fun t => (t.v 5, t.pc, t.run))
    (completeKeyWait 5 7 ((State.reset.setPc 0x208).setRun (.awaitKey 5))) = some (7, 0x20A, .running) := by
  decide
theorem test_tick : (State.tick ((State.reset.setDt 5).setSt 0)).dt = 4 ∧
    (State.tick ((State.reset.setDt 5).setSt 0)).st = 0 := by decide

-- loader and reset, R1 and R4
theorem test_loader : (State.construct Config.default [0x12, 0x34, 0x56]).mem =
    [(0x200, 0x12), (0x201, 0x34), (0x202, 0x56)] := by decide
theorem test_font_at_reset : [State.reset.byteAt 0x082, State.reset.byteAt 0x083, State.reset.byteAt 0x09F] =
    [0xF0, 0x90, 0x80] := by decide

/-! ### Witnesses: for each statement with hypotheses a concrete state and operands that meet them all,
clause by clause at the boundary of its range. Statements that are not named here have no hypothesis, or
only the one of `EncodedAs`. -/

/-- A state that holds the bytes of `w` at pc. -/
abbrev holding (s : State) (w : Nat) : State := s.withFetchWord 16 w

/-- A Faulted state. -/
abbrev faultedState : State :=
  State.reset.setRun (.faulted ⟨.stackUnderflow, 0x200, some 0x00EE, none⟩)

/-- A state Faulted on the RET at pc. -/
abbrev faultedWord : State :=
  (holding State.reset 0x00EE).setRun (.faulted ⟨.stackUnderflow, 0x200, some 0x00EE, none⟩)

/-- A state that waits in an FX0A with register 5, no key pressed. -/
abbrev awaitingState : State :=
  ((holding State.reset 0xF50A).setRun (.awaitKey 5)).setSignals awaitingSignals

/-- A well-formed state with a cell listed, a register set and the stack full. -/
abbrev fullState : State := holding ((withSp Config.default 16).setV 1 7) 0x2300

/-- A state about to store V0 to V3 from 4093 on, one byte past memory. -/
abbrev storeState : State := holding (atIndex Config.default 4093) 0xF355

/-- The hypothesis of every `EncodedAs` clause: each row's match is a word that matches the row. -/
theorem witness_EncodedAs : (opcodeMap.all fun r => decide (r.2 &&& r.1 = r.2)) = true := by decide

theorem witness_EncodeOfADecodedWordIsTheWord : decode 0xD125 = .ok (.drw 1 2 5) := by decide

/-- Both directions of a row, and words just outside it. -/
theorem witness_AWordSelectsExactlyTheRowItMatches :
    ((0xF00F, 0x5000) : Word × Word) ∈ opcodeMap ∧ (0x5120 : Word) &&& 0xF00F = 0x5000 ∧
    (0x5121 : Word) &&& 0xF00F ≠ 0x5000 ∧ Instr.row (.seReg 1 2) = (0xF00F, 0x5000) := by decide

/-- A word at the edge of each class, and a word just outside each. -/
theorem witness_UnknownWordsAreTheListedClasses_errors :
    decode 0x0FFF = .error (.unknownOpcode 0x0FFF) ∧ decode 0x5001 = .error (.unknownOpcode 0x5001) ∧
    decode 0x8FF8 = .error (.unknownOpcode 0x8FF8) ∧ decode 0x9FFF = .error (.unknownOpcode 0x9FFF) ∧
    decode 0xE09F = .error (.unknownOpcode 0xE09F) ∧ decode 0xF066 = .error (.unknownOpcode 0xF066) := by
  decide
theorem witness_UnknownWordsAreTheListedClasses_instructions :
    decode 0x1000 = .ok (.jp 0) ∧ decode 0x5FF0 = .ok (.seReg 0xF 0xF) ∧
    decode 0x800E = .ok (.shl 0 0) ∧ decode 0x9000 = .ok (.sneReg 0 0) ∧
    decode 0xE0A1 = .ok (.sknp 0) ∧ decode 0xFF65 = .ok (.loadRegs 0xF) := by decide

/-- The last address of the in-bounds clause, 4094, and one only Wrap admits, 0xFFFF. -/
theorem witness_AStepRunsTheDecodedInstruction_inBounds :
    let s := holding (State.reset.setPc 4094) 0x6001
    s.run = .running ∧ s.pc.toNat + 1 < 4096 ∧
    decode (wordOfBytes (s.byteAt (s.pc.toNat % 4096)) (s.byteAt ((s.pc.toNat + 1) % 4096))) =
      .ok (.ldImm 0 1) := by decide
theorem witness_AStepRunsTheDecodedInstruction_wrap :
    let s := holding ((State.initial wrapCfg).setPc 0xFFFF) 0x1200
    s.run = .running ∧ s.cfg.oobPolicy = .wrap ∧
    decode (wordOfBytes (s.byteAt (s.pc.toNat % 4096)) (s.byteAt ((s.pc.toNat + 1) % 4096))) =
      .ok (.jp 0x200) := by decide

theorem witness_AFetchOutOfRangeFaults :
    let s := State.reset.setPc 4095
    s.run = .running ∧ s.cfg.oobPolicy = .fatal ∧ 4095 ≤ s.pc.toNat := by decide

theorem witness_AnUnknownWordGoesByThePolicy_fatal :
    let s := holding State.reset 0x0123
    s.run = .running ∧ s.fetch = .ok 0x0123 ∧ decode 0x0123 = .error (.unknownOpcode 0x0123) ∧
    s.cfg.unknownPolicy = .fatal := by decide
theorem witness_AnUnknownWordGoesByThePolicy_noOp :
    let s := holding (State.initial noOpCfg) 0x812F
    s.run = .running ∧ s.fetch = .ok 0x812F ∧ decode 0x812F = .error (.unknownOpcode 0x812F) ∧
    s.cfg.unknownPolicy = .noOp := by decide

theorem witness_AStepOfAFaultedCoreChangesNothing :
    faultedState.run = .faulted ⟨.stackUnderflow, 0x200, some 0x00EE, none⟩ := rfl

/-- SP at both ends of its range, and both cases of the conclusion: what raises and what does not. -/
theorem witness_AnInstructionRaisesExactlyItsOwnError :
    State.reset.safe = true ∧ State.reset.sp ≤ State.reset.cfg.stackDepth ∧
    causeOf State.reset .ret = some .stackUnderflow ∧ causeOf State.reset (.call 0x300) = none ∧
    (withSp Config.default 16).safe = true ∧
    (withSp Config.default 16).sp ≤ (withSp Config.default 16).cfg.stackDepth ∧
    causeOf (withSp Config.default 16) (.call 0x300) = some .stackOverflow ∧
    causeOf (withSp Config.default 16) .ret = none := by decide

theorem witness_AFaultingInstructionDiscardsEveryWrite :
    State.reset.safe = true ∧ ∃ t, exec .ret State.reset = .next t ∧ t.safe = false := by
  exact ⟨by decide, _, rfl, rfl⟩

/-- An unknown word, and a store whose block reaches one byte past memory. -/
theorem witness_AFaultingStepIsPrecise :
    (State.reset.safe = true ∧ State.reset.sp ≤ State.reset.cfg.stackDepth ∧
      ∃ t, step State.reset = .next t ∧ t.safe = false) ∧
    (storeState.safe = true ∧ storeState.sp ≤ storeState.cfg.stackDepth ∧
      ∃ t, step storeState = .next t ∧ t.safe = false) := by
  exact ⟨⟨by decide, by decide, _, rfl, rfl⟩, by decide, by decide, _, rfl, rfl⟩

/-- A row whose pc column is blank, and one whose is not. -/
theorem witness_EveryInstructionKeepsToTheAccessMatrix :
    (∃ t, exec (.storeRegs 0xF) State.reset = .next t ∧ t.safe = true ∧ State.reset.safe = true ∧
      writesPc (.storeRegs 0xF) = false) ∧ writesPc (.jp 0x200) = true := by
  exact ⟨⟨_, rfl, rfl, rfl, rfl⟩, rfl⟩

theorem witness_NoStepChangesConfigOrKeys : ∃ t, step (holding State.reset 0x6001) = .next t := ⟨_, rfl⟩

/-- Both sides of the equivalence: a step that draws and one that does not. -/
theorem witness_DrawIsSignalledExactlyByClearAndDraw :
    (∃ t, step (holding State.reset 0x00E0) = .next t ∧ t.signals.draw = true) ∧
    (∃ t, step (holding State.reset 0x6001) = .next t ∧ t.signals.draw = false) ∧
    (holding State.reset 0x00E0).safe = true ∧ (holding State.reset 0x6001).safe = true := by
  exact ⟨⟨_, rfl, rfl⟩, ⟨_, rfl, rfl⟩, rfl, rfl⟩

theorem witness_EveryStepKeepsTheStateWellFormed : fullState.Inv ∧ ∃ t, step fullState = .next t :=
  ⟨⟨by decide, by decide, by decide, by decide, by decide⟩, _, rfl⟩

theorem witness_EveryTransactionKeepsTheStateWellFormed :
    fullState.Inv ∧ (∀ cfg rom, Transaction.construct Config.default [1, 2] = .construct cfg rom → cfg.wf = true) ∧
    ∃ t r, transact (.construct Config.default [1, 2]) fullState = .next (t, r) :=
  ⟨⟨by decide, by decide, by decide, by decide, by decide⟩,
    fun cfg rom h => by injection h with h _; subst h; decide, _, _, rfl⟩

/-- In each run state, and in Faulted for each cause. -/
theorem witness_TheRunStateTellsTheTruth :
    (State.reset.sp ≤ State.reset.cfg.stackDepth ∧ State.reset.runTrue ∧
      ∃ t r, transact .step State.reset = .next (t, r)) ∧
    (awaitingState.sp ≤ awaitingState.cfg.stackDepth ∧ awaitingState.runTrue ∧
      ∃ t r, transact .step awaitingState = .next (t, r)) ∧
    (faultedWord.sp ≤ faultedWord.cfg.stackDepth ∧ faultedWord.runTrue ∧
      ∃ t r, transact .tickTimers faultedWord = .next (t, r)) :=
  ⟨⟨by decide, trivial, _, _, rfl⟩,
    ⟨by decide, by show awaitingState.fetch = .ok (encode (.ldVxK 5)); decide, _, _, rfl⟩,
    by decide, ⟨rfl, by decide, rfl, by decide, rfl⟩, _, _, rfl⟩
theorem witness_TheRunStateTellsTheTruth_overflow :
    fullState.sp = 16 ∧ fullState.recordTrue ⟨.stackOverflow, 0x200, some 0x2300, none⟩ :=
  ⟨rfl, rfl, 0x300, by decide, rfl, by decide, rfl⟩
theorem witness_TheRunStateTellsTheTruth_unknown :
    State.reset.recordTrue ⟨.unknownOpcode, 0x200, some 0, none⟩ :=
  ⟨rfl, 0, by decide, rfl, by decide, rfl, rfl⟩
theorem witness_TheRunStateTellsTheTruth_fetch :
    (State.reset.setPc 4095).recordTrue ⟨.memoryOutOfBounds, 4095, none, some 4096⟩ :=
  ⟨rfl, .inl ⟨rfl, by decide, rfl, rfl⟩⟩
theorem witness_TheRunStateTellsTheTruth_data :
    storeState.recordTrue ⟨.memoryOutOfBounds, 0x200, some 0xF355, some 4096⟩ :=
  ⟨rfl, .inr ⟨0xF355, .storeRegs 3, by decide, by decide, by decide, rfl, rfl⟩⟩
theorem witness_TheRunStateTellsTheTruth_rom :
    State.reset.recordTrue ⟨.romTooLarge, 0x200, none, some 4097⟩ :=
  ⟨rfl, rfl, rfl, 4097, by decide, rfl⟩

theorem witness_OnlyConstructLeavesFaulted :
    faultedState.run = .faulted ⟨.stackUnderflow, 0x200, some 0x00EE, none⟩ ∧
    (∀ cfg rom, Transaction.step ≠ .construct cfg rom) ∧
    ∃ t r, transact .step faultedState = .next (t, r) :=
  ⟨rfl, fun _ _ h => (by cases h), _, _, rfl⟩

/-- One entry left, and none left. -/
theorem witness_CallPushesTheReturnAddress :
    let s := withSp Config.default 15
    let u := withSp Config.default 16
    s.stack.length = s.cfg.stackDepth ∧ s.sp < s.cfg.stackDepth ∧
    u.stack.length = u.cfg.stackDepth ∧ u.sp = u.cfg.stackDepth := by decide

theorem witness_ReturnGoesToThePoppedAddress :
    0 < (withSp Config.default 1).sp ∧ State.reset.sp = 0 := by decide

theorem witness_CallThenReturnComesBack :
    let s := withSp Config.default 15
    s.stack.length = s.cfg.stackDepth ∧ s.sp < s.cfg.stackDepth ∧ 14 < s.sp := by decide

theorem witness_ShiftsSetTheBitShiftedOutLast :
    (0x05 : Byte) = (if (with12 Config.default 5 8).cfg.shiftSrc = .vx then (with12 Config.default 5 8).v 1
      else (with12 Config.default 5 8).v 2) ∧
    (0x08 : Byte) = (if (with12 vyCfg 5 8).cfg.shiftSrc = .vx then (with12 vyCfg 5 8).v 1
      else (with12 vyCfg 5 8).v 2) := by decide

/-- The last block in bounds, and one that only Wrap admits. -/
theorem witness_DecimalDigitsAreStored :
    (atIndex Config.default 4093).mem.wf Font.standard ∧ (atIndex Config.default 4093).blockResolves 3 = true ∧
    (atIndex Config.default 4094).blockResolves 3 = false ∧
    (atIndex wrapCfg 4094).mem.wf Font.standard ∧ (atIndex wrapCfg 4094).blockResolves 3 = true := by decide

theorem witness_StoreRegistersStoresTheBlock :
    (atIndex Config.default 4080).mem.wf Font.standard ∧
    (atIndex Config.default 4080).blockResolves ((0xF : RegIdx).toNat + 1) = true ∧
    (atIndex wrapCfg 0xFFFF).blockResolves ((0xF : RegIdx).toNat + 1) = true ∧
    (0xF : RegIdx) ≤ 0xF := by decide

theorem witness_LoadRegistersLoadsTheBlock :
    (atIndex Config.default 4095).blockResolves ((0 : RegIdx).toNat + 1) = true ∧
    (atIndex wrapCfg 4095).blockResolves ((0xF : RegIdx).toNat + 1) = true ∧ (0 : RegIdx) ≤ 0 := by decide

/-- V0 to V2 stored, then loaded in a state whose registers are all zero. -/
theorem witness_StoreThenLoadGivesTheRegistersBack :
    let s := ((with12 Config.default 1 2).setIndex 0x300)
    s.mem.wf s.cfg.font ∧ s.blockResolves ((2 : RegIdx).toNat + 1) = true ∧
    ∃ t u : State, exec (.storeRegs 2) s = .next t ∧ u.mem = t.mem ∧ u.index = t.index ∧ u.cfg = t.cfg ∧
      u.v 1 = 0 :=
  ⟨by decide, by decide, _, { State.reset with mem := [(0x301, 1), (0x302, 2)], index := 0x300 }, rfl,
    by decide, by decide, by decide, by decide⟩

/-- The self-modifying store of program P8. -/
theorem witness_AStoredWordIsFetchedNext :
    let s := (((State.reset.setV 0 0x12).setV 1 0x08).setIndex 0x208).setPc 0x206
    s.mem.wf s.cfg.font ∧ s.blockResolves ((1 : RegIdx).toNat + 1) = true ∧ (0 : RegIdx) < 1 ∧
    ∃ t, exec (.storeRegs 1) s = .next t ∧ t.pc.toNat + 1 < 4096 ∧
      t.pc.toNat % 4096 = (s.index.toNat + (0 : RegIdx).toNat) % 4096 :=
  ⟨by decide, by decide, by decide, _, rfl, by decide, by decide⟩

/-- Each clause at the lowest I that leaves `mem`. -/
theorem witness_ABlockOutOfRangeFaultsAtTheLowestAddress :
    State.reset.cfg.oobPolicy = .fatal ∧
    4096 < (atIndex Config.default 4094).index.toNat + 3 ∧
    4096 < (atIndex Config.default 4096).index.toNat + ((0 : RegIdx).toNat + 1) ∧
    4096 < (atIndex Config.default 4095).index.toNat + (2 : BitVec 4).toNat ∧ 0 < (2 : BitVec 4).toNat := by
  decide

theorem witness_DrawXorsTheClippedSprite :
    (atIndex Config.default 4096).blockResolves (0 : BitVec 4).toNat = true ∧
    (atIndex Config.default 4081).blockResolves (15 : BitVec 4).toNat = true ∧
    (atIndex wrapCfg 0xFFFF).blockResolves (15 : BitVec 4).toNat = true := by decide

/-- A sprite that shows, on a clear screen. -/
theorem witness_DrawingTwiceGivesTheScreenBack :
    (1 : RegIdx) ≠ 0xF ∧ (2 : RegIdx) ≠ 0xF ∧ (atIndex Config.default 0x082).blockResolves 5 = true ∧
    (atIndex Config.default 0x082).fb = Framebuffer.clear ∧
    (atIndex Config.default 0x082).spritePixel 1 2 5 0 0 = true :=
  ⟨by decide, by decide, by decide, rfl, by decide⟩

theorem witness_KeySkipsTestTheLowNibblesKey :
    (0xC : KeyIdx).toNat = ((State.reset.setV 4 0x1C).v 4).toNat % 16 := by decide

theorem witness_WaitForKeyCompletesOrSuspends :
    State.reset.run = .running ∧ (∀ k, State.reset.key k = false) ∧
    (State.reset.setKey 0xF true).run = .running ∧ ∃ k, (State.reset.setKey 0xF true).key k = true :=
  ⟨rfl, by decide, rfl, 0xF, by decide⟩

theorem witness_AnAwaitingStepCompletesOrGoesOnWaiting :
    awaitingState.run = .awaitKey 5 ∧ (∀ k, awaitingState.key k = false) ∧
    (awaitingState.setKey 0 true).run = .awaitKey 5 ∧ ∃ k, (awaitingState.setKey 0 true).key k = true :=
  ⟨rfl, by decide, rfl, 0, by decide⟩

theorem witness_EveryPressedKeyMayBePicked :
    ((State.reset.setKey 2 true).setKey 9 true).key 9 = true := by decide

/-- A step that leaves the timers, both of them running. -/
theorem witness_TicksCommuteWithStepsThatLeaveTheTimers :
    let s := holding ((State.reset.setDt 3).setSt 1) 0x6001
    (s.run = .running → ∀ w i, s.fetch = .ok w → decode w = .ok i → ¬ accessesTimers i) ∧
    ∃ t, step s = .next t := by
  refine ⟨fun _ w i hf hd => ?_, _, rfl⟩
  have hw : (holding ((State.reset.setDt 3).setSt 1) 0x6001).fetch = .ok 0x6001 := by decide
  rw [hw] at hf
  cases hf
  have hi : decode 0x6001 = .ok (.ldImm 0 1) := by decide
  rw [hi] at hd
  cases hd
  rintro ⟨x, h | h | h⟩ <;> cases h

/-- Each run state, and the last pixel. -/
theorem witness_ThePortsShowTheState :
    State.reset.run = .running ∧ awaitingState.run = .awaitKey 5 ∧
    faultedState.run = .faulted ⟨.stackUnderflow, 0x200, some 0x00EE, none⟩ ∧ 31 < 32 ∧ 63 < 64 :=
  ⟨rfl, rfl, rfl, by decide, by decide⟩

/-- The last font byte, the bytes on both sides of the font, and the last byte of memory. -/
theorem witness_ResetLeavesTheStatedValues :
    79 < 80 ∧ (0x04F < 0x050 ∨ 0x0A0 ≤ 0x04F) ∧ (0x0A0 < 0x050 ∨ 0x0A0 ≤ 0x0A0) ∧
    (0xFFF < 0x050 ∨ 0x0A0 ≤ 0xFFF) := by decide

/-- The longest ROM that fits, its last byte, and the address before it. -/
theorem witness_TheLoaderPlacesEachRomByte :
    (List.replicate 3584 (0xAB : Byte)).length ≤ 3584 ∧ 3583 < (List.replicate 3584 (0xAB : Byte)).length ∧
    (0x1FF < 0x200 ∨ 0x200 + (List.replicate 3584 (0xAB : Byte)).length ≤ 0x1FF) := by
  simp only [List.length_replicate]; decide

theorem witness_AnOversizedRomIsRefused : 3584 < (List.replicate 3585 (0xAB : Byte)).length := by
  simp only [List.length_replicate]; decide

end Sys2Proof.Tests
end

/-! ## What no step writes: the Config record and the key latches (00_scope.md R5, 10_state.md R31) -/

namespace Sys2Proof.Machine

/-- An outcome of a step from `s` whose next state, if it has one, has the Config and the key latches
of `s`. -/
def KeepsConfigAndKeys (s : State) (o : StepOutcome) : Prop :=
  ∀ t, o = .next t → t.cfg = s.cfg ∧ t.keys = s.keys

theorem keepsConfigAndKeys_next {s t : State} (hcfg : t.cfg = s.cfg) (hkeys : t.keys = s.keys) :
    KeepsConfigAndKeys s (.next t) := by
  rintro _ ⟨rfl⟩
  exact ⟨hcfg, hkeys⟩

theorem raise_keepsConfigAndKeys (s : State) (c : Cause) (w : Option Word) (addr : Option Nat) :
    KeepsConfigAndKeys s (raise s c w addr) := by
  obtain ⟨t, ht, hfault⟩ := raise_spec s c w addr
  rw [ht]
  exact keepsConfigAndKeys_next hfault.frame.cfg hfault.frame.keys

theorem unknownWord_keepsConfigAndKeys (w : Word) (s : State) :
    KeepsConfigAndKeys s (unknownWord w s) := by
  unfold unknownWord
  cases s.cfg.unknownPolicy with
  | fatal => exact raise_keepsConfigAndKeys _ _ _ _
  | noOp => exact keepsConfigAndKeys_next rfl rfl

/-! The meanings that raise an error, store to memory, write a register block or wait for a key. -/

theorem execRet_keepsConfigAndKeys (s : State) : KeepsConfigAndKeys s (execRet s) := by
  unfold execRet
  cases h : s.advance.pop with
  | none => exact raise_keepsConfigAndKeys _ _ _ _
  | some popped =>
    obtain ⟨target, t⟩ := popped
    obtain ⟨k, -, -, rfl⟩ := State.pop_eq_some h
    exact keepsConfigAndKeys_next rfl rfl

theorem execCall_keepsConfigAndKeys (nnn : Addr12) (s : State) :
    KeepsConfigAndKeys s (execCall nnn s) := by
  unfold execCall
  cases h : s.advance.push s.advance.pc with
  | none => exact raise_keepsConfigAndKeys _ _ _ _
  | some pushed =>
    obtain ⟨-, rfl⟩ := State.push_eq_some h
    exact keepsConfigAndKeys_next rfl rfl

theorem skipIf_keepsConfigAndKeys (s : State) (cond : Bool) :
    KeepsConfigAndKeys s (.next (s.advance.skipIf cond)) :=
  keepsConfigAndKeys_next (by simp) (by simp)

theorem execDrw_keepsConfigAndKeys (x y : RegIdx) (n : BitVec 4) (s : State) :
    KeepsConfigAndKeys s (execDrw x y n s) := by
  unfold execDrw
  cases s.readBytes s.index.toNat n.toNat with
  | error addr => exact raise_keepsConfigAndKeys _ _ _ _
  | ok rows => exact keepsConfigAndKeys_next rfl rfl

theorem execAddI_keepsConfigAndKeys (x : RegIdx) (s : State) :
    KeepsConfigAndKeys s (execAddI x s) := by
  unfold execAddI
  cases s.cfg.fx1eSetsVf <;> exact keepsConfigAndKeys_next rfl rfl

/-- A block write that succeeds, after the fetch advance. -/
theorem writeBytes_keepsConfigAndKeys {s t : State} {addr : Nat} {bs : List Byte}
    (h : s.advance.writeBytes addr bs = .ok t) : KeepsConfigAndKeys s (.next t) := by
  rw [State.writeBytes_mem bs h]
  exact keepsConfigAndKeys_next rfl rfl

theorem execLdB_keepsConfigAndKeys (x : RegIdx) (s : State) :
    KeepsConfigAndKeys s (execLdB x s) := by
  unfold execLdB
  cases h : s.advance.writeBytes s.index.toNat (decimalDigits (s.v x)) with
  | error addr => exact raise_keepsConfigAndKeys _ _ _ _
  | ok t => exact writeBytes_keepsConfigAndKeys h

theorem execStoreRegs_keepsConfigAndKeys (x : RegIdx) (s : State) :
    KeepsConfigAndKeys s (execStoreRegs x s) := by
  unfold execStoreRegs
  cases h : s.advance.writeBytes s.index.toNat (s.regBlock x) with
  | error addr => exact raise_keepsConfigAndKeys _ _ _ _
  | ok t => exact writeBytes_keepsConfigAndKeys h

theorem execLoadRegs_keepsConfigAndKeys (x : RegIdx) (s : State) :
    KeepsConfigAndKeys s (execLoadRegs x s) := by
  unfold execLoadRegs
  cases s.readBytes s.index.toNat (x.toNat + 1) with
  | error addr => exact raise_keepsConfigAndKeys _ _ _ _
  | ok bytes =>
    show KeepsConfigAndKeys s (.next (s.advance.setRegBlock 0 bytes))
    rw [State.setRegBlock_rest]
    exact keepsConfigAndKeys_next rfl rfl

theorem execLdVxK_keepsConfigAndKeys (x : RegIdx) (s : State) :
    KeepsConfigAndKeys s (execLdVxK x s) := by
  unfold execLdVxK
  cases s.pickPressedKey <;> exact keepsConfigAndKeys_next rfl rfl

theorem awaitKeyStep_keepsConfigAndKeys (x : RegIdx) (s : State) :
    KeepsConfigAndKeys s (awaitKeyStep x s) := by
  unfold awaitKeyStep
  cases s.pickPressedKey <;> exact keepsConfigAndKeys_next rfl rfl

/-- The instructions of the last case are one `.next` of updates that leave both fields by definition. -/
theorem exec_keepsConfigAndKeys (i : Instr) (s : State) : KeepsConfigAndKeys s (exec i s) := by
  cases i with
  | ret => exact execRet_keepsConfigAndKeys s
  | call nnn => exact execCall_keepsConfigAndKeys nnn s
  | seImm | sneImm | seReg | sneReg | skp | sknp => exact skipIf_keepsConfigAndKeys s _
  | drw x y n => exact execDrw_keepsConfigAndKeys x y n s
  | addI x => exact execAddI_keepsConfigAndKeys x s
  | ldB x => exact execLdB_keepsConfigAndKeys x s
  | storeRegs x => exact execStoreRegs_keepsConfigAndKeys x s
  | loadRegs x => exact execLoadRegs_keepsConfigAndKeys x s
  | ldVxK x => exact execLdVxK_keepsConfigAndKeys x s
  | _ => exact keepsConfigAndKeys_next rfl rfl

theorem step_keepsConfigAndKeys (s : State) : KeepsConfigAndKeys s (step s) := by
  obtain ⟨-, -, h⟩ | ⟨x, -, h⟩ | ⟨-, ⟨addr, -, h⟩ | ⟨w, -, ⟨i, -, h⟩ | ⟨-, -, h⟩⟩⟩ := step_cases s
  all_goals rw [h]
  · exact keepsConfigAndKeys_next rfl rfl
  · exact awaitKeyStep_keepsConfigAndKeys x s
  · exact raise_keepsConfigAndKeys _ _ _ _
  · exact exec_keepsConfigAndKeys i s
  · exact unknownWord_keepsConfigAndKeys w s

/-- Settles O16: each way a step can go, and each instruction's meaning, keeps both fields. -/
theorem noStepChangesConfigOrKeys : Obligations.NoStepChangesConfigOrKeys := by
  unfold Obligations.NoStepChangesConfigOrKeys
  exact step_keepsConfigAndKeys

end Sys2Proof.Machine

/-! ## The free pick of a pressed key (00_scope.md R10, 44_keys_timers.md R196, decision D15) -/

namespace Sys2Proof.Machine

/-- No key is shut out: the choice that picks a key is its position in the list. -/
theorem exists_pickKey_eq {j k : KeyIdx} {ks : List KeyIdx} (h : j ∈ k :: ks) :
    ∃ choice, pickKey choice k ks = j := by
  obtain ⟨pos, hpos, rfl⟩ := List.mem_iff_getElem.1 h
  refine ⟨pos, ?_⟩
  have hmod : pos % (ks.length + 1) = pos := Nat.mod_eq_of_lt (by simpa using hpos)
  rw [pickKey, hmod, List.getD_eq_getElem _ _ hpos]

theorem State.pickPressedKey_of_pressedKeys {s : State} {k : KeyIdx} {ks : List KeyIdx}
    (h : s.pressedKeys = k :: ks) :
    s.pickPressedKey = some (pickKey (Config.pressedKeyChoice s.draws) k ks) := by
  simp only [State.pickPressedKey, h]

@[simp] theorem keyCode_toNat (k : KeyIdx) : (keyCode k).toNat = k.toNat := by
  simp only [keyCode, BitVec.toNat_setWidth]
  omega

/-- FX0A with a key to pick stores the code of that key in Vx. -/
theorem exec_ldVxK_stores_pick {s : State} {k : KeyIdx} (h : s.pickPressedKey = some k) (x : RegIdx) :
    ∃ t, exec (.ldVxK x) s = .next t ∧ (t.v x).toNat = k.toNat := by
  have hexec : exec (.ldVxK x) s = completeKeyWait x k s := by
    simp only [exec, execLdVxK, h]
  exact ⟨_, hexec, by simp [State.v_setV]⟩

/-- Settles O52: the list of the pressed keys is not empty, since k is in it. -/
theorem everyPressedKeyMayBePicked : Obligations.EveryPressedKeyMayBePicked := by
  unfold Obligations.EveryPressedKeyMayBePicked
  intro s k hk
  have hmem : k ∈ s.pressedKeys := (s.mem_pressedKeys k).2 hk
  obtain ⟨first, rest, hlist⟩ := List.exists_cons_of_ne_nil (List.ne_nil_of_mem hmem)
  have hpick := State.pickPressedKey_of_pressedKeys hlist
  refine ⟨first, rest, hlist, hpick, exec_ldVxK_stores_pick hpick, fun j => ?_, ?_⟩
  · rw [← hlist]
    exact s.mem_pressedKeys j
  · exact exists_pickKey_eq (hlist ▸ hmem)

end Sys2Proof.Machine

/-! ## What the decoder answers (30_encoding.md R75 to R77) -/

namespace Sys2Proof

/-- An answer of the decoder is right for `w`: an instruction has `w` as its word, and an error names `w`. -/
def AnswersFor (w : Word) : Except DecodeError Instr → Prop
  | .ok i => encode i = w
  | .error e => e = .unknownOpcode w

/-! A word is known from its op nibble and the fields of its form. -/

theorem wordNNN_of_opField {w : Word} {op : BitVec 4} (h : (opField w).toNat = op.toNat) :
    wordNNN op (nnnField w) = w := by
  rw [← BitVec.eq_of_toNat_eq h, wordNNN_fields]

theorem wordXNN_of_opField {w : Word} {op : BitVec 4} (h : (opField w).toNat = op.toNat) :
    wordXNN op (xField w) (nnField w) = w := by
  rw [← BitVec.eq_of_toNat_eq h, wordXNN_fields]

theorem wordXYN_of_opField {w : Word} {op : BitVec 4} (h : (opField w).toNat = op.toNat) :
    wordXYN op (xField w) (yField w) (nField w) = w := by
  rw [← BitVec.eq_of_toNat_eq h, wordXYN_fields]

theorem wordXNN_of_fields {w : Word} {op : BitVec 4} {nn : Byte} (h : (opField w).toNat = op.toNat)
    (hnn : nnField w = nn) : wordXNN op (xField w) nn = w := by
  rw [← hnn, wordXNN_of_opField h]

theorem wordXYN_of_fields {w : Word} {op n : BitVec 4} (h : (opField w).toNat = op.toNat)
    (hn : (nField w).toNat = n.toNat) : wordXYN op (xField w) (yField w) n = w := by
  rw [← BitVec.eq_of_toNat_eq hn, wordXYN_of_opField h]

theorem decodeOp0_answersFor (w : Word) : AnswersFor w (decodeOp0 w) := by
  unfold decodeOp0
  split
  · exact Eq.symm ‹_›
  · split
    · exact Eq.symm ‹_›
    · rfl

theorem decodeOp8_answersFor {w : Word} (h : (opField w).toNat = 0x8) : AnswersFor w (decodeOp8 w) := by
  unfold decodeOp8
  dsimp only
  split
  case h_10 => rfl
  all_goals exact wordXYN_of_fields h ‹_›

theorem decodeOpE_answersFor {w : Word} (h : (opField w).toNat = 0xE) : AnswersFor w (decodeOpE w) := by
  unfold decodeOpE
  repeat' split
  case isFalse.isFalse => rfl
  all_goals exact wordXNN_of_fields h ‹_›

theorem decodeOpF_answersFor {w : Word} (h : (opField w).toNat = 0xF) : AnswersFor w (decodeOpF w) := by
  unfold decodeOpF
  dsimp only
  iterate 9
    split
    · exact wordXNN_of_fields h ‹_›
  rfl

/-- Majors 5 and 9 need a zero low nibble (90_conflicts.md C1). -/
theorem ite_nField_answersFor {w : Word} {i : Instr} (h : nField w = 0 → encode i = w) :
    AnswersFor w (if nField w = 0 then .ok i else .error (.unknownOpcode w)) := by
  split
  · exact h ‹_›
  · rfl

/-- The decoder loses no bit of a word it accepts, and names the word it rejects. -/
theorem decode_answersFor (w : Word) : AnswersFor w (decode w) := by
  unfold decode
  split
  next => exact decodeOp0_answersFor w
  next h => exact wordNNN_of_opField h
  next h => exact wordNNN_of_opField h
  next h => exact wordXNN_of_opField h
  next h => exact wordXNN_of_opField h
  next h => exact ite_nField_answersFor fun hn => wordXYN_of_fields h (congrArg _ hn)
  next h => exact wordXNN_of_opField h
  next h => exact wordXNN_of_opField h
  next h => exact decodeOp8_answersFor h
  next h => exact ite_nField_answersFor fun hn => wordXYN_of_fields h (congrArg _ hn)
  next h => exact wordNNN_of_opField h
  next h => exact wordNNN_of_opField h
  next h => exact wordXNN_of_opField h
  next h => exact wordXYN_of_opField h
  next h => exact decodeOpE_answersFor h
  next =>
    have hlt := (opField w).isLt
    simp only [imp_false] at *
    exact decodeOpF_answersFor (w := w) (by omega)

theorem encode_of_decode {w : Word} {i : Instr} (h : decode w = .ok i) : encode i = w := by
  have := decode_answersFor w
  rwa [h] at this

theorem eq_unknownOpcode_of_decode {w : Word} {e : DecodeError} (h : decode w = .error e) :
    e = .unknownOpcode w := by
  have := decode_answersFor w
  rwa [h] at this

end Sys2Proof

/-! ## What an executed instruction leaves: one rule for each state operation (10_state.md R39) -/

namespace Sys2Proof.Machine

section Rules

variable {w : Writes} {movesPc : Bool} {s t u : State}

/-! A frame is kept by an update of a component that the instruction writes. -/

theorem Frame.setV (h : Frame w s t) {x : RegIdx} (hw : w.reg x = true) (b : Byte) :
    Frame w s (t.setV x b) :=
  { h with
    regs := fun j hj => by
      have hne : j ≠ x := by rintro rfl; rw [hw] at hj; cases hj
      rw [State.v_setV, if_neg hne, h.regs j hj] }

theorem Frame.setIndex (h : Frame w s t) (hw : w.index = true) (a : Addr) : Frame w s (t.setIndex a) :=
  { h with index := by simp [hw] }

theorem Frame.setStack (h : Frame w s t) (hw : w.stack = true) (stack : List Addr) (sp : Nat) :
    Frame w s { t with stack := stack, sp := sp } :=
  { h with stack := by simp [hw] }

theorem Frame.setDt (h : Frame w s t) (hw : w.dt = true) (b : Byte) : Frame w s (t.setDt b) :=
  { h with dt := by simp [hw] }

theorem Frame.setSt (h : Frame w s t) (hw : w.st = true) (b : Byte) : Frame w s (t.setSt b) :=
  { h with st := by simp [hw] }

theorem Frame.setFb (h : Frame w s t) (hw : w.fb = true) (fb : Framebuffer) : Frame w s (t.setFb fb) :=
  { h with fb := by simp [hw] }

theorem Frame.setRun (h : Frame w s t) (hw : w.run = true) (r : Run) : Frame w s (t.setRun r) :=
  { h with run := by simp [hw] }

theorem Frame.countDraw (h : Frame w s t) (hw : w.draws = true) : Frame w s t.countDraw :=
  { h with draws := by simp [hw] }

theorem Frame.setPc (h : Frame w s t) (a : Addr) : Frame w s (t.setPc a) := { h with }

theorem Frame.setSignals (h : Frame w s t) (g : Signals) : Frame w s (t.setSignals g) := { h with }

theorem Frame.advance (w : Writes) (s : State) : Frame w s s.advance := { Frame.refl w s with }

theorem Frame.setMem (h : Frame w s t) {m : Memory}
    (hw : ∀ a, w.byte a = false → (t.setMem m).byteAt a = t.byteAt a) : Frame w s (t.setMem m) :=
  { h with bytes := fun a ha => (hw a ha).trans (h.bytes a ha) }

/-- `t` is left by an instruction that ran from `s` without a fault and without suspending: what it changed
lies in `w`, it moved pc beyond the advance only where `movesPc` says so, a running core runs on, and what
`State.Inv` says of the stack and of memory still holds. -/
structure Executes (w : Writes) (movesPc : Bool) (s t : State) : Prop where
  frame : Frame w s t
  pc : movesPc = false → t.pc = s.pc + 2
  running : s.run = .running → t.run = .running
  not_awaiting : t.signals.awaiting = false
  stack_length : t.stack.length = s.stack.length
  sp_le : s.sp ≤ s.cfg.stackDepth → t.sp ≤ s.cfg.stackDepth
  mem_wf : s.mem.wf s.cfg.font → t.mem.wf s.cfg.font

theorem Executes.advance : Executes w movesPc s s.advance where
  frame := Frame.advance w s
  pc _ := rfl
  running h := h
  not_awaiting := rfl
  stack_length := rfl
  sp_le h := h
  mem_wf h := h

theorem Executes.setV (h : Executes w movesPc s t) {x : RegIdx} (hw : w.reg x = true) {b : Byte} :
    Executes w movesPc s (t.setV x b) := { h with frame := h.frame.setV hw b }

theorem Executes.setResult (h : Executes w movesPc s t) {x : RegIdx} (hx : w.reg x = true)
    (hf : w.reg 0xF = true) {b : Byte} {c : Bool} : Executes w movesPc s (t.setResult x b c) :=
  (h.setV hx).setV hf

theorem Executes.setIndex (h : Executes w movesPc s t) (hw : w.index = true) {a : Addr} :
    Executes w movesPc s (t.setIndex a) := { h with frame := h.frame.setIndex hw a }

theorem Executes.setDt (h : Executes w movesPc s t) (hw : w.dt = true) {b : Byte} :
    Executes w movesPc s (t.setDt b) := { h with frame := h.frame.setDt hw b }

theorem Executes.setSt (h : Executes w movesPc s t) (hw : w.st = true) {b : Byte} :
    Executes w movesPc s (t.setSt b) := { h with frame := h.frame.setSt hw b }

theorem Executes.setFb (h : Executes w movesPc s t) (hw : w.fb = true) {fb : Framebuffer} :
    Executes w movesPc s (t.setFb fb) := { h with frame := h.frame.setFb hw fb }

theorem Executes.countDraw (h : Executes w movesPc s t) (hw : w.draws = true) :
    Executes w movesPc s t.countDraw := { h with frame := h.frame.countDraw hw }

theorem Executes.setRun_running (h : Executes w movesPc s t) (hw : w.run = true) :
    Executes w movesPc s (t.setRun .running) :=
  { h with frame := h.frame.setRun hw .running, running := fun _ => rfl }

theorem Executes.setSignals (h : Executes w movesPc s t) {g : Signals} (hg : g.awaiting = false) :
    Executes w movesPc s (t.setSignals g) := { h with frame := h.frame.setSignals g, not_awaiting := hg }

theorem Executes.setPc (h : Executes w true s t) {a : Addr} : Executes w true s (t.setPc a) :=
  { h with frame := h.frame.setPc a, pc := by simp }

theorem Executes.skipIf (h : Executes w true s t) (c : Bool) : Executes w true s (t.skipIf c) := by
  cases c with
  | true => exact h.setPc
  | false => exact h

theorem Executes.push (h : Executes w movesPc s t) (hw : w.stack = true) {a : Addr}
    (hu : t.push a = some u) : Executes w movesPc s u := by
  obtain ⟨hroom, rfl⟩ := State.push_eq_some hu
  rw [h.frame.cfg] at hroom
  exact { h with
    frame := h.frame.setStack hw _ _
    stack_length := by simpa using h.stack_length
    sp_le := fun _ => hroom }

theorem Executes.pop (h : Executes w movesPc s t) (hw : w.stack = true) {a : Addr}
    (hu : t.pop = some (a, u)) : Executes w movesPc s u := by
  obtain ⟨k, hk, -, rfl⟩ := State.pop_eq_some hu
  exact { h with
    frame := h.frame.setStack hw _ _
    sp_le := fun hs => by have := h.sp_le hs; simp only; omega }

/-- A block of registers, all of which the instruction writes. -/
theorem Executes.setRegBlock {bs : List Byte} {k : Nat} (h : Executes w movesPc s t)
    (hw : ∀ j, j < k + bs.length → w.reg (BitVec.ofNat 4 j) = true) :
    Executes w movesPc s (t.setRegBlock k bs) := by
  induction bs generalizing t k with
  | nil => exact h
  | cons b bs ih =>
    rw [List.length_cons] at hw
    exact ih (h.setV (hw k (by omega))) fun j hj => hw j (by omega)

/-- A block write that succeeds, at addresses that the instruction stores to. -/
theorem Executes.writeBytes (h : Executes w movesPc s t) {addr : Nat} {bs : List Byte}
    (hu : t.writeBytes addr bs = .ok u)
    (hw : ∀ a, w.byte a = false → ∀ k, k < bs.length → s.resolve (addr + k) ≠ .ok a) :
    Executes w movesPc s u := by
  have hcfg : t.cfg = s.cfg := h.frame.cfg
  have hmem : u = t.setMem u.mem := State.writeBytes_mem bs hu
  have hbytes : ∀ a, w.byte a = false → u.byteAt a = t.byteAt a := fun a ha =>
    State.byteAt_writeBytes_other bs hu a (State.resolve_congr hcfg ▸ hw a ha)
  have hwf : s.mem.wf s.cfg.font → u.mem.wf s.cfg.font := fun hs => by
    have hut : u.cfg = t.cfg := by rw [hmem, State.setMem_cfg]
    have := State.writeBytes_wf bs hu (hcfg ▸ h.mem_wf hs)
    rwa [hut, hcfg] at this
  rw [hmem] at hbytes ⊢
  exact { h with frame := h.frame.setMem hbytes, mem_wf := hwf }

end Rules

/-! What a block access from I does, by whether the block resolves (20_memory.md R53, 60_exceptions.md R216). -/

theorem State.readBytes_of_blockResolves {s : State} {n : Nat} (h : s.blockResolves n = true) :
    ∃ bs, s.readBytes s.index.toNat n = .ok bs ∧ bs.length = n :=
  ⟨_, s.readBytes_ok _ n ((s.blockResolves_iff n).1 h), by simp⟩

theorem State.readBytes_of_not_blockResolves {s : State} {n : Nat} (h : s.blockResolves n = false) :
    s.readBytes s.index.toNat n = .error (max s.index.toNat 4096) := by
  obtain ⟨hfatal, hend, hpos⟩ := (s.blockResolves_eq_false n).1 h
  exact s.readBytes_error _ n hfatal hend hpos

theorem State.advance_writeBytes_of_blockResolves {s : State} {bs : List Byte}
    (h : s.blockResolves bs.length = true) : ∃ t, s.advance.writeBytes s.index.toNat bs = .ok t :=
  State.writeBytes_ok bs s.advance _ (by simpa using (s.blockResolves_iff _).1 h)

theorem State.advance_writeBytes_of_not_blockResolves {s : State} {bs : List Byte}
    (h : s.blockResolves bs.length = false) :
    s.advance.writeBytes s.index.toNat bs = .error (max s.index.toNat 4096) := by
  obtain ⟨hfatal, hend, hpos⟩ := (s.blockResolves_eq_false _).1 h
  exact State.writeBytes_error bs s.advance _ hfatal hend (List.ne_nil_of_length_pos hpos)

theorem State.resolve_ne_of_storesTo {s : State} {n a : Nat} (h : s.storesTo n a = false) :
    ∀ k, k < n → s.resolve (s.index.toNat + k) ≠ .ok a := by
  intro k hk hres
  have := List.any_eq_false.1 h k (List.mem_range.2 hk)
  exact this ((s.resolvesTo_iff _ _).2 hres)

end Sys2Proof.Machine

/-! ## All an instruction can do (60_exceptions.md R211) -/

namespace Sys2Proof.Machine

/-- The core takes the fatal error of a record (60_exceptions.md R213): what `raise` answers. -/
def State.enterFault (s : State) (r : FaultRecord) : State :=
  (s.setRun (.faulted r)).setSignals Signals.none

theorem raise_eq (s : State) (c : Cause) (word : Option Word) (addr : Option Nat) :
    raise s c word addr = .next (s.enterFault ⟨c, s.pc, word, addr⟩) := rfl

/-- The core waits for a key, pc at the FX0A (44_keys_timers.md R196): what FX0A leaves when no key is
pressed. -/
def State.enterWait (s : State) (x : RegIdx) : State :=
  (s.setRun (.awaitKey x)).setSignals awaitingSignals

/-- Instruction i raises an error from `s`: with which cause and address (60_exceptions.md R210, R216). -/
inductive Raises (s : State) : Instr → Cause → Option Nat → Prop
  | overflow (nnn : Addr12) (h : s.cfg.stackDepth ≤ s.sp) : Raises s (.call nnn) .stackOverflow none
  | underflow (h : s.sp = 0) : Raises s .ret .stackUnderflow none
  | access {i : Instr} (h : causeOf s i = some .memoryOutOfBounds) :
    Raises s i .memoryOutOfBounds (some (max s.index.toNat 4096))

/-- What instruction i leaves of `s`: it raises its error, suspends, or executes within its row of the
access matrix. -/
inductive ExecLeaves (s : State) : Instr → State → Prop
  | raises {i : Instr} {c : Cause} {addr : Option Nat} (h : Raises s i c addr) :
    ExecLeaves s i (s.enterFault ⟨c, s.pc, some (encode i), addr⟩)
  | suspends (x : RegIdx) : ExecLeaves s (.ldVxK x) (s.enterWait x)
  | executes {i : Instr} {t : State} (h : Executes (writesOf s i) (writesPc i) s t) : ExecLeaves s i t

theorem execRet_leaves (s : State) : ∃ t, execRet s = .next t ∧ ExecLeaves s .ret t := by
  unfold execRet
  cases h : s.advance.pop with
  | none => exact ⟨_, raise_eq _ _ _ _, .raises (.underflow ((State.pop_eq_none (s := s.advance)).1 h))⟩
  | some popped => exact ⟨_, rfl, .executes ((Executes.advance.pop rfl h).setPc)⟩

theorem execCall_leaves (nnn : Addr12) (s : State) :
    ∃ t, execCall nnn s = .next t ∧ ExecLeaves s (.call nnn) t := by
  unfold execCall
  cases h : s.advance.push s.advance.pc with
  | none => exact ⟨_, raise_eq _ _ _ _, .raises (.overflow nnn ((State.push_eq_none (s := s.advance)).1 h))⟩
  | some t => exact ⟨_, rfl, .executes ((Executes.advance.push rfl h).setPc)⟩

theorem execDrw_leaves (x y : RegIdx) (n : BitVec 4) (s : State) :
    ∃ t, execDrw x y n s = .next t ∧ ExecLeaves s (.drw x y n) t := by
  unfold execDrw
  cases h : s.blockResolves n.toNat with
  | false =>
    rw [State.readBytes_of_not_blockResolves h]
    exact ⟨_, raise_eq _ _ _ _, .raises (.access (by simp [causeOf, h]))⟩
  | true =>
    obtain ⟨rows, hrows, -⟩ := State.readBytes_of_blockResolves h
    rw [hrows]
    exact ⟨_, rfl, .executes (((Executes.advance.setFb rfl).setV rfl).setSignals rfl)⟩

theorem execAddI_leaves (x : RegIdx) (s : State) :
    ∃ t, execAddI x s = .next t ∧ ExecLeaves s (.addI x) t := by
  refine ⟨_, rfl, .executes ?_⟩
  split
  · exact (Executes.advance.setIndex rfl).setV (by simpa [writesOf] using ‹_›)
  · exact Executes.advance.setIndex rfl

/-- An instruction that stores a block from I: FX33 and FX55. -/
theorem exec_leaves_of_store {s : State} {i : Instr} {bs : List Byte}
    (herror : ∀ addr, s.advance.writeBytes s.index.toNat bs = .error addr →
      exec i s = raise s .memoryOutOfBounds (some (encode i)) (some addr))
    (hok : ∀ t, s.advance.writeBytes s.index.toNat bs = .ok t → exec i s = .next t)
    (hcause : causeOf s i = if s.blockResolves bs.length then none else some .memoryOutOfBounds)
    (hwrites : (writesOf s i).byte = s.storesTo bs.length) :
    ∃ t, exec i s = .next t ∧ ExecLeaves s i t := by
  cases h : s.blockResolves bs.length with
  | false =>
    rw [herror _ (State.advance_writeBytes_of_not_blockResolves h)]
    exact ⟨_, raise_eq _ _ _ _, .raises (.access (by simp [hcause, h]))⟩
  | true =>
    obtain ⟨t, ht⟩ := State.advance_writeBytes_of_blockResolves h
    exact ⟨t, hok t ht, .executes (Executes.advance.writeBytes ht fun a ha =>
      State.resolve_ne_of_storesTo (hwrites ▸ ha))⟩

theorem exec_ldB_leaves (x : RegIdx) (s : State) :
    ∃ t, exec (.ldB x) s = .next t ∧ ExecLeaves s (.ldB x) t :=
  exec_leaves_of_store (bs := decimalDigits (s.v x))
    (fun addr h => by simp only [exec, execLdB, h]) (fun t h => by simp only [exec, execLdB, h]) rfl rfl

theorem exec_storeRegs_leaves (x : RegIdx) (s : State) :
    ∃ t, exec (.storeRegs x) s = .next t ∧ ExecLeaves s (.storeRegs x) t :=
  exec_leaves_of_store (bs := s.regBlock x)
    (fun addr h => by simp only [exec, execStoreRegs, h])
    (fun t h => by simp only [exec, execStoreRegs, h])
    (by rw [State.regBlock_length]; rfl) (by rw [State.regBlock_length]; rfl)

theorem execLoadRegs_leaves (x : RegIdx) (s : State) :
    ∃ t, execLoadRegs x s = .next t ∧ ExecLeaves s (.loadRegs x) t := by
  unfold execLoadRegs
  cases h : s.blockResolves (x.toNat + 1) with
  | false =>
    rw [State.readBytes_of_not_blockResolves h]
    exact ⟨_, raise_eq _ _ _ _, .raises (.access (by simp [causeOf, h]))⟩
  | true =>
    obtain ⟨bs, hbs, hlen⟩ := State.readBytes_of_blockResolves h
    rw [hbs]
    refine ⟨_, rfl, .executes (Executes.advance.setRegBlock fun j hj => ?_)⟩
    have hle : BitVec.ofNat 4 j ≤ x := by
      rw [BitVec.le_def, BitVec.toNat_ofNat]
      omega
    simpa [writesOf] using hle

/-- FX0A completes, in the Running and in the AwaitKey state alike. -/
theorem completeKeyWait_executes (x : RegIdx) (s : State) {b : Byte} :
    Executes (writesOf s (.ldVxK x)) true s ((s.advance.countDraw.setV x b).setRun .running) :=
  ((Executes.advance.countDraw rfl).setV (decide_eq_true rfl)).setRun_running rfl

theorem execLdVxK_leaves (x : RegIdx) (s : State) :
    ∃ t, execLdVxK x s = .next t ∧ ExecLeaves s (.ldVxK x) t := by
  unfold execLdVxK
  cases s.pickPressedKey with
  | none => exact ⟨_, rfl, .suspends x⟩
  | some k => exact ⟨_, rfl, .executes (completeKeyWait_executes x s)⟩

/-- All an instruction can do. The instructions without a lemma of their own are one chain of updates,
and each update is of a component that the access matrix gives the instruction. -/
theorem exec_leaves (i : Instr) (s : State) : ∃ t, exec i s = .next t ∧ ExecLeaves s i t := by
  cases i with
  | cls => exact ⟨_, rfl, .executes ((Executes.advance.setFb rfl).setSignals rfl)⟩
  | ret => exact execRet_leaves s
  | jp | jpV0 => exact ⟨_, rfl, .executes Executes.advance.setPc⟩
  | call nnn => exact execCall_leaves nnn s
  | seImm | sneImm | seReg | sneReg | skp | sknp =>
    exact ⟨_, rfl, .executes (Executes.advance.skipIf _)⟩
  | ldImm | addImm | ldReg | orReg | andReg | xorReg | ldVxDt =>
    exact ⟨_, rfl, .executes (Executes.advance.setV (by simp [writesOf]))⟩
  | addReg | subReg | shr | subnReg | shl =>
    exact ⟨_, rfl, .executes (Executes.advance.setResult (by simp [writesOf]) (by simp [writesOf]))⟩
  | ldI | ldF => exact ⟨_, rfl, .executes (Executes.advance.setIndex rfl)⟩
  | rnd => exact ⟨_, rfl, .executes ((Executes.advance.countDraw rfl).setV (by simp [writesOf]))⟩
  | drw x y n => exact execDrw_leaves x y n s
  | ldVxK x => exact execLdVxK_leaves x s
  | ldDtVx => exact ⟨_, rfl, .executes (Executes.advance.setDt rfl)⟩
  | ldStVx => exact ⟨_, rfl, .executes (Executes.advance.setSt rfl)⟩
  | addI x => exact execAddI_leaves x s
  | ldB x => exact exec_ldB_leaves x s
  | storeRegs x => exact exec_storeRegs_leaves x s
  | loadRegs x => exact execLoadRegs_leaves x s

theorem ExecLeaves.of_exec {i : Instr} {s t : State} (h : exec i s = .next t) : ExecLeaves s i t := by
  obtain ⟨u, hu, hleaves⟩ := exec_leaves i s
  rw [h] at hu
  cases hu
  exact hleaves

/-- Settles O15: a fault is excluded, a suspended FX0A has its run state in its row, and every other
instruction stays in its row by the rule of each of its updates. -/
theorem everyInstructionKeepsToTheAccessMatrix : Obligations.EveryInstructionKeepsToTheAccessMatrix := by
  unfold Obligations.EveryInstructionKeepsToTheAccessMatrix
  intro i s t hexec hsafe _
  cases ExecLeaves.of_exec hexec with
  | raises h => cases hsafe
  | suspends x => exact ⟨((Frame.refl _ s).setRun rfl _).setSignals _, by simp [writesPc]⟩
  | executes h => exact ⟨h.frame, h.pc⟩

end Sys2Proof.Machine

/-! ## All a step can do (30_encoding.md R83) -/

namespace Sys2Proof.Machine

/-- What a step leaves of `s`: a Faulted core stays as it is, an error is recorded truly, the core waits
for a key at an FX0A, or it runs on within `w`. -/
inductive StepLeaves (s : State) : State → Prop
  | stays {r : FaultRecord} (h : s.run = .faulted r) : StepLeaves s s
  | faults {r : FaultRecord} (h : s.sp ≤ s.cfg.stackDepth → s.recordTrue r) : StepLeaves s (s.enterFault r)
  | waits {x : RegIdx} (h : s.run = .awaitKey x ∨ s.fetch = .ok (encode (.ldVxK x))) :
    StepLeaves s (s.enterWait x)
  | runs {w : Writes} {movesPc : Bool} {t : State} (h : Executes w movesPc s t) (hrun : t.run = .running) :
    StepLeaves s t

/-- An instruction's error is recorded truly. -/
theorem Raises.recordTrue {s : State} {i : Instr} {c : Cause} {addr : Option Nat} (h : Raises s i c addr)
    (hsp : s.sp ≤ s.cfg.stackDepth) (hfetch : s.fetch = .ok (encode i))
    (hdecode : decode (encode i) = .ok i) : s.recordTrue ⟨c, s.pc, some (encode i), addr⟩ := by
  refine ⟨rfl, ?_⟩
  cases h with
  | overflow nnn h => exact ⟨nnn, hfetch, rfl, if_pos (Nat.le_antisymm hsp h), rfl⟩
  | underflow h => exact ⟨hfetch, rfl, if_pos h, rfl⟩
  | access h => exact .inr ⟨_, i, hfetch, hdecode, h, rfl, rfl⟩

/-- A fetch fails under Fatal from 4095 on only, and reports the first address out of range. -/
theorem State.fetch_error_spec {s : State} {addr : Nat} (h : s.fetch = .error addr) :
    s.cfg.oobPolicy = .fatal ∧ 4095 ≤ s.pc.toNat ∧ addr = max s.pc.toNat 4096 := by
  have hfatal : s.cfg.oobPolicy = .fatal := (State.fetch_eq_error h).2
  have hpc : 4095 ≤ s.pc.toNat := by
    by_contra hlt
    rw [s.fetch_ok (.inl (by omega))] at h
    cases h
  rw [s.fetch_error hfatal hpc] at h
  cases h
  exact ⟨hfatal, hpc, rfl⟩

theorem awaitKeyStep_leaves {x : RegIdx} {s : State} (hrun : s.run = .awaitKey x) :
    ∃ t, awaitKeyStep x s = .next t ∧ StepLeaves s t := by
  unfold awaitKeyStep
  cases s.pickPressedKey with
  | none =>
    have hwait : s.setSignals awaitingSignals = s.enterWait x := by
      rw [State.enterWait, State.setRun, ← hrun]
    exact ⟨_, rfl, hwait ▸ .waits (.inl hrun)⟩
  | some k => exact ⟨_, rfl, .runs (completeKeyWait_executes x s) rfl⟩

theorem unknownWord_leaves {w : Word} {e : DecodeError} {s : State} (hrun : s.run = .running)
    (hfetch : s.fetch = .ok w) (hdecode : decode w = .error e) :
    ∃ t, unknownWord w s = .next t ∧ StepLeaves s t := by
  rw [eq_unknownOpcode_of_decode hdecode] at hdecode
  unfold unknownWord
  cases hpolicy : s.cfg.unknownPolicy with
  | fatal => exact ⟨_, raise_eq _ _ _ _, .faults fun _ => ⟨rfl, w, hfetch, rfl, hdecode, hpolicy, rfl⟩⟩
  | noOp => exact ⟨_, rfl, .runs (w := {}) (movesPc := false) (Executes.advance.setSignals rfl) hrun⟩

theorem exec_stepLeaves {i : Instr} {s : State} (hrun : s.run = .running)
    (hfetch : s.fetch = .ok (encode i)) (hdecode : decode (encode i) = .ok i) :
    ∃ t, exec i s = .next t ∧ StepLeaves s t := by
  obtain ⟨t, ht, hleaves⟩ := exec_leaves i s
  refine ⟨t, ht, ?_⟩
  cases hleaves with
  | raises h => exact .faults fun hsp => h.recordTrue hsp hfetch hdecode
  | suspends x => exact .waits (.inr hfetch)
  | executes h => exact .runs h (h.running hrun)

theorem step_leaves (s : State) : ∃ t, step s = .next t ∧ StepLeaves s t := by
  obtain ⟨r, hrun, h⟩ | ⟨x, hrun, h⟩ |
    ⟨hrun, ⟨addr, hfetch, h⟩ | ⟨w, hfetch, ⟨i, hdecode, h⟩ | ⟨e, hdecode, h⟩⟩⟩ := step_cases s
  all_goals rw [h]
  · exact ⟨s, rfl, .stays hrun⟩
  · exact awaitKeyStep_leaves hrun
  · obtain ⟨hfatal, hpc, rfl⟩ := State.fetch_error_spec hfetch
    exact ⟨_, raise_eq _ _ _ _, .faults fun _ => ⟨rfl, .inl ⟨hfatal, hpc, rfl, rfl⟩⟩⟩
  · obtain rfl := encode_of_decode hdecode
    exact exec_stepLeaves hrun hfetch hdecode
  · exact unknownWord_leaves hrun hfetch hdecode

theorem StepLeaves.of_step {s t : State} (h : step s = .next t) : StepLeaves s t := by
  obtain ⟨u, hu, hleaves⟩ := step_leaves s
  rw [h] at hu
  cases hu
  exact hleaves

end Sys2Proof.Machine

/-! ## Well-formed states (10_state.md R20, R26, 20_memory.md R50) -/

namespace Sys2Proof.Machine

/-- Only Config, the stack, memory, the run state and the signals matter to `State.Inv`. -/
theorem State.Inv.congr {s t : State} (hs : s.Inv) (hcfg : t.cfg = s.cfg) (hstack : t.stack = s.stack)
    (hsp : t.sp = s.sp) (hmem : t.mem = s.mem) (hfit : t.signalsFit = true) : t.Inv where
  cfg_wf := hcfg ▸ hs.cfg_wf
  stack_length := by rw [hstack, hcfg, hs.stack_length]
  sp_le := by rw [hsp, hcfg]; exact hs.sp_le
  mem_wf := by rw [hmem, hcfg]; exact hs.mem_wf
  signals_fit := hfit

theorem State.Inv.of_executes {w : Writes} {movesPc : Bool} {s t : State} (hs : s.Inv)
    (h : Executes w movesPc s t) (hrun : t.run = .running) : t.Inv where
  cfg_wf := h.frame.cfg ▸ hs.cfg_wf
  stack_length := by rw [h.stack_length, h.frame.cfg, hs.stack_length]
  sp_le := by rw [h.frame.cfg]; exact h.sp_le hs.sp_le
  mem_wf := by rw [h.frame.cfg]; exact h.mem_wf hs.mem_wf
  signals_fit := by simp [State.signalsFit, hrun, h.not_awaiting]

theorem State.Inv.of_stepLeaves {s t : State} (hs : s.Inv) (h : StepLeaves s t) : t.Inv := by
  cases h with
  | stays => exact hs
  | faults => exact hs.congr rfl rfl rfl rfl rfl
  | waits => exact hs.congr rfl rfl rfl rfl rfl
  | runs h hrun => exact hs.of_executes h hrun

/-- Settles O18, by what a step can leave. -/
theorem everyStepKeepsTheStateWellFormed : Obligations.EveryStepKeepsTheStateWellFormed := by
  unfold Obligations.EveryStepKeepsTheStateWellFormed
  exact fun s t hs hstep => hs.of_stepLeaves (.of_step hstep)

theorem State.initial_inv {cfg : Config} (h : cfg.wf = true) : (State.initial cfg).Inv where
  cfg_wf := h
  stack_length := List.length_replicate
  sp_le := Nat.zero_le _
  mem_wf := Memory.nil_wf cfg.font
  signals_fit := rfl

/-- The two ways `construct` can go (70_reset_and_hazards.md R242, R243): the ROM is in memory, or it is
too long and the core is Faulted. -/
theorem State.construct_cases (cfg : Config) (rom : List Byte) :
    (∃ m, State.construct cfg rom = (State.initial cfg).setMem m ∧ m.wf cfg.font) ∨
    (3584 < rom.length ∧ State.construct cfg rom =
      (State.initial cfg).setRun (.faulted ⟨.romTooLarge, 0x200, none, some (0x200 + rom.length)⟩)) := by
  by_cases h : rom.length ≤ 3584
  · have hwrite := State.construct_fits cfg rom h
    have hmem := State.writeBytes_mem rom hwrite
    have hwf := State.writeBytes_wf rom hwrite (Memory.nil_wf cfg.font)
    rw [hmem] at hwf
    exact .inl ⟨_, hmem, hwf⟩
  · exact .inr ⟨by omega, State.construct_oversized cfg rom (by omega)⟩

theorem State.construct_inv {cfg : Config} (rom : List Byte) (h : cfg.wf = true) :
    (State.construct cfg rom).Inv := by
  have hs := State.initial_inv h
  obtain ⟨m, hm, hwf⟩ | ⟨-, hm⟩ := State.construct_cases cfg rom
  all_goals rw [hm]
  · exact { hs with mem_wf := hwf, signals_fit := rfl }
  · exact hs.congr rfl rfl rfl rfl rfl

/-- Settles O19: a step by what it can leave, `construct` from the initial state, and the others leave
the components alone that matter. -/
theorem everyTransactionKeepsTheStateWellFormed : Obligations.EveryTransactionKeepsTheStateWellFormed := by
  unfold Obligations.EveryTransactionKeepsTheStateWellFormed
  intro tr s t r hs hcfg h
  obtain ⟨cfg, rom, htr, rfl, -⟩ | ⟨-, hstep, -⟩ | ⟨-, rfl, -⟩ | ⟨k, b, -, rfl, -⟩ | rfl := transact_cases h
  · have hc := State.construct_inv rom (hcfg cfg rom htr)
    exact hc.congr rfl rfl rfl rfl hc.signals_fit
  · exact hs.of_stepLeaves (.of_step hstep)
  · exact hs.congr rfl rfl rfl rfl hs.signals_fit
  · exact hs.congr rfl rfl rfl rfl hs.signals_fit
  · exact hs

end Sys2Proof.Machine

/-! ## The run state tells the truth (10_state.md R23, R33) -/

namespace Sys2Proof.Machine

theorem State.enterFault_runTrue {s : State} {r : FaultRecord} (h : s.recordTrue r) :
    (s.enterFault r).runTrue :=
  (State.recordTrue_congr rfl rfl rfl rfl rfl r).2 h

theorem State.enterWait_runTrue {s : State} {x : RegIdx} (h : s.fetch = .ok (encode (.ldVxK x))) :
    (s.enterWait x).runTrue :=
  (State.fetch_congr rfl rfl rfl).trans h

theorem State.runTrue_of_running {s : State} (h : s.run = .running) : s.runTrue := by
  simp [State.runTrue, h]

theorem State.fetch_of_awaitKey {s : State} {x : RegIdx} (h : s.runTrue) (hrun : s.run = .awaitKey x) :
    s.fetch = .ok (encode (.ldVxK x)) := by
  simpa [State.runTrue, hrun] using h

theorem StepLeaves.keeps_truth {s t : State} (h : StepLeaves s t) (hsp : s.sp ≤ s.cfg.stackDepth)
    (hs : s.runTrue) : t.sp ≤ t.cfg.stackDepth ∧ t.runTrue := by
  cases h with
  | stays => exact ⟨hsp, hs⟩
  | faults h => exact ⟨hsp, State.enterFault_runTrue (h hsp)⟩
  | waits h => exact ⟨hsp, State.enterWait_runTrue (h.elim (State.fetch_of_awaitKey hs) id)⟩
  | runs h hrun => exact ⟨by rw [h.frame.cfg]; exact h.sp_le hsp, State.runTrue_of_running hrun⟩

theorem State.construct_sp_le (cfg : Config) (rom : List Byte) :
    (State.construct cfg rom).sp ≤ (State.construct cfg rom).cfg.stackDepth := by
  obtain ⟨m, hm, -⟩ | ⟨-, hm⟩ := State.construct_cases cfg rom
  all_goals
    rw [hm]
    exact Nat.zero_le _

theorem State.construct_runTrue (cfg : Config) (rom : List Byte) : (State.construct cfg rom).runTrue := by
  obtain ⟨m, hm, -⟩ | ⟨hlen, hm⟩ := State.construct_cases cfg rom
  all_goals rw [hm]
  · exact State.runTrue_of_running rfl
  · exact ⟨rfl, rfl, rfl, _, by omega, rfl⟩

/-- Settles O20: a step by what it can leave, `construct` from the initial state, and the others leave
what the run state speaks of alone. -/
theorem theRunStateTellsTheTruth : Obligations.TheRunStateTellsTheTruth := by
  unfold Obligations.TheRunStateTellsTheTruth
  intro tr s t r hsp hs h
  obtain ⟨cfg, rom, -, rfl, -⟩ | ⟨-, hstep, -⟩ | ⟨-, rfl, -⟩ | ⟨k, b, -, rfl, -⟩ | rfl := transact_cases h
  · exact ⟨State.construct_sp_le cfg rom,
      (State.runTrue_congr rfl rfl rfl rfl rfl rfl).2 (State.construct_runTrue cfg rom)⟩
  · exact (StepLeaves.of_step hstep).keeps_truth hsp hs
  · exact ⟨hsp, (State.runTrue_congr rfl rfl rfl rfl rfl rfl).2 hs⟩
  · exact ⟨hsp, (State.runTrue_congr rfl rfl rfl rfl rfl rfl).2 hs⟩
  · exact ⟨hsp, hs⟩

/-- Settles O21: the reset state is an initial state, and it is Running. -/
theorem theResetStateIsWellFormed : Obligations.TheResetStateIsWellFormed := by
  unfold Obligations.TheResetStateIsWellFormed
  exact ⟨State.initial_inv (by decide), State.runTrue_of_running rfl⟩

end Sys2Proof.Machine

/-! ## The interface and reset (10_state.md R38, R40, R41) -/

namespace Sys2Proof.Machine

/-- Settles O55, by the rule of a latch read after a key write. -/
theorem aKeyWriteChangesOneLatch : Obligations.AKeyWriteChangesOneLatch := by
  unfold Obligations.AKeyWriteChangesOneLatch
  exact fun s k b => ⟨s.setKey k b, rfl, fun j => s.key_setKey k j b, rfl⟩

/-! The two fields of a pixel address 64 y + x (10_state.md R41). -/

theorem pixelAddr_row {y x : Nat} (hy : y < 32) (hx : x < 64) :
    ((BitVec.ofNat 11 (64 * y + x)).extractLsb' 6 5).toNat = y := by
  simp only [BitVec.extractLsb'_toNat, BitVec.toNat_ofNat, Nat.shiftRight_eq_div_pow]
  omega

theorem pixelAddr_column {y x : Nat} (hx : x < 64) :
    ((BitVec.ofNat 11 (64 * y + x)).extractLsb' 0 6).toNat = x := by
  simp only [BitVec.extractLsb'_toNat, BitVec.toNat_ofNat, Nat.shiftRight_zero]
  omega

/-- Settles O56, port by port. -/
theorem thePortsShowTheState : Obligations.ThePortsShowTheState := by
  unfold Obligations.ThePortsShowTheState
  intro s
  refine ⟨fun h => ?_, fun x h => ?_, fun r h => ⟨?_, ?_⟩, ?_, rfl, ?_, fun y x hy hx => ?_⟩
  · simp [State.statusPort, State.faultCodePort, h]
  · simp [State.statusPort, State.faultCodePort, h]
  · simp [State.statusPort, h]
  · simp only [State.faultCodePort, h, FaultRecord.code]
    cases r.cause <;> rfl
  · simp [State.soundPort, State.soundActive]
  · exact Option.isSome_iff_exists
  · rw [State.fbPixelPort, pixelAddr_row hy hx, pixelAddr_column hx]

theorem State.construct_nil (cfg : Config) : State.construct cfg [] = State.initial cfg := rfl

/-! Every read of the initial state (10_state.md R38). -/

theorem State.initial_v (cfg : Config) (j : RegIdx) : (State.initial cfg).v j = 0 := by
  simp [State.initial, State.v]

theorem State.initial_key (cfg : Config) (k : KeyIdx) : (State.initial cfg).key k = false := by
  simp [State.initial, State.key]

theorem State.initial_stackEntry (cfg : Config) (k : Nat) : (State.initial cfg).stackEntry k = 0 := by
  simp [State.initial, State.stackEntry]

theorem State.initial_byteAt_font (cfg : Config) {k : Nat} (h : k < 80) :
    (State.initial cfg).byteAt (0x050 + k) = cfg.font[k] := by
  have hin : 0x050 ≤ 0x050 + k ∧ 0x050 + k < 0x0A0 := by omega
  simp only [State.byteAt, State.initial, Memory.get, resetByte, dif_pos hin, Nat.add_sub_cancel_left]

theorem State.initial_byteAt_outside_font (cfg : Config) {a : Nat} (h : a < 0x050 ∨ 0x0A0 ≤ a) :
    (State.initial cfg).byteAt a = 0 := by
  have hout : ¬ (0x050 ≤ a ∧ a < 0x0A0) := by omega
  simp only [State.byteAt, State.initial, Memory.get, resetByte, dif_neg hout]

/-- Settles O57: `construct` with an empty ROM is the initial state. -/
theorem resetLeavesTheStatedValues : Obligations.ResetLeavesTheStatedValues := by
  unfold Obligations.ResetLeavesTheStatedValues
  refine ⟨rfl, fun cfg => ⟨_, rfl, ?_⟩⟩
  rw [State.construct_nil]
  exact ⟨rfl, rfl, rfl, rfl, rfl, rfl, rfl, State.initial_v cfg, State.initial_key cfg,
    State.initial_stackEntry cfg, List.length_replicate, Framebuffer.pixel_clear,
    fun _ h => State.initial_byteAt_font cfg h, fun _ h => State.initial_byteAt_outside_font cfg h⟩

end Sys2Proof.Machine

/-! ## What a block store leaves, and the fetch of a stored word (20_memory.md R63, 42_index_memory.md R154) -/

namespace Sys2Proof.Machine

theorem State.resolve_of_blockResolves {s : State} {n k : Nat} (h : s.blockResolves n = true) (hk : k < n) :
    s.resolve (s.index.toNat + k) = .ok ((s.index.toNat + k) % 4096) := by
  apply State.resolve_ok
  obtain hwrap | hend | hzero := (s.blockResolves_iff n).1 h
  · exact .inr hwrap
  · exact .inl (by omega)
  · omega

/-- Byte k of a block stored from I, read back at the address that I + k resolves to. -/
theorem State.byteAt_advance_writeBytes {s t : State} {bs : List Byte} (hm : s.mem.wf s.cfg.font)
    (hlen : bs.length ≤ 4096) (hblock : s.blockResolves bs.length = true)
    (h : s.advance.writeBytes s.index.toNat bs = .ok t) {k : Nat} (hk : k < bs.length) :
    t.byteAt ((s.index.toNat + k) % 4096) = bs.getD k 0 :=
  State.byteAt_writeBytes bs h hm hlen k hk _
    ((State.resolve_congr s.advance_cfg).symm ▸ State.resolve_of_blockResolves hblock hk)

/-- FX55 whose block resolves is that block's store after the fetch advance. -/
theorem writeBytes_of_exec_storeRegs {s t : State} {x : RegIdx}
    (hblock : s.blockResolves (x.toNat + 1) = true) (h : exec (.storeRegs x) s = .next t) :
    s.advance.writeBytes s.index.toNat (s.regBlock x) = .ok t := by
  rw [← s.regBlock_length x] at hblock
  obtain ⟨u, hu⟩ := State.advance_writeBytes_of_blockResolves hblock
  simp only [exec, execStoreRegs, hu] at h
  cases h
  exact hu

/-- V[k] is in memory after FX55 (42_index_memory.md R154). -/
theorem byteAt_of_exec_storeRegs {s t : State} {x : RegIdx} (hm : s.mem.wf s.cfg.font)
    (hblock : s.blockResolves (x.toNat + 1) = true) (h : exec (.storeRegs x) s = .next t)
    {k : RegIdx} (hk : k ≤ x) : t.byteAt ((s.index.toNat + k.toNat) % 4096) = s.v k := by
  have hkx : k.toNat ≤ x.toNat := hk
  have hlen := s.regBlock_length x
  rw [State.byteAt_advance_writeBytes hm (by omega) (hlen.symm ▸ hblock)
      (writeBytes_of_exec_storeRegs hblock h) (by omega),
    State.regBlock_getD s x k.toNat hkx, BitVec.ofNat_toNat, BitVec.setWidth_eq]

/-- Settles O43: the fetch reads the bytes of V[k] and V[k + 1], which FX55 left at I + k and I + k + 1. -/
theorem aStoredWordIsFetchedNext : Obligations.AStoredWordIsFetchedNext := by
  unfold Obligations.AStoredWordIsFetchedNext
  intro s t x k hm hblock hexec hkx hfetch hpc
  have hcfg : t.cfg = s.cfg := (exec_keepsConfigAndKeys _ s t hexec).1
  have hsucc : (k + 1).toNat = k.toNat + 1 := by bv_omega
  have hsuccx : k + 1 ≤ x := by bv_omega
  have hhigh : t.byteAt (t.pc.toNat % 4096) = s.v k :=
    hpc ▸ byteAt_of_exec_storeRegs hm hblock hexec (BitVec.le_of_lt hkx)
  have hlow : t.byteAt ((t.pc.toNat + 1) % 4096) = s.v (k + 1) := by
    rw [← byteAt_of_exec_storeRegs hm hblock hexec hsuccx, hsucc,
      show (t.pc.toNat + 1) % 4096 = (s.index.toNat + (k.toNat + 1)) % 4096 by omega]
  rw [t.fetch_ok (by rwa [hcfg]), hhigh, hlow]

end Sys2Proof.Machine

/-! ## Decoder and encoder are inverse (30_encoding.md R70 to R79, decision D10) -/

namespace Sys2Proof

/-- No bit of an operand is lost: each field of an assembled word is the operand put there, and the fixed
fields lead the decoder to the instruction's own branch. -/
theorem decode_encode (i : Instr) : decode (encode i) = .ok i := by
  cases i with
  | cls | ret => rfl
  | ldReg | orReg | andReg | xorReg | addReg | subReg | shr | subnReg | shl =>
    simp [encode, decode, decodeOp8]
  | skp | sknp => simp [encode, decode, decodeOpE]
  | ldVxDt | ldVxK | ldDtVx | ldStVx | addI | ldF | ldB | storeRegs | loadRegs =>
    simp [encode, decode, decodeOpF]
  | _ => simp [encode, decode]

theorem decode_eq_ok_iff {w : Word} {i : Instr} : decode w = .ok i ↔ encode i = w :=
  ⟨encode_of_decode, fun h => h ▸ decode_encode i⟩

/-- Settles O1, by the form of the instruction's word. -/
theorem decodeOfEncodeIsTheInstruction : Obligations.DecodeOfEncodeIsTheInstruction := by
  unfold Obligations.DecodeOfEncodeIsTheInstruction
  exact decode_encode

/-- Settles O2: the decoder's answers are right for the word it reads. -/
theorem encodeOfADecodedWordIsTheWord : Obligations.EncodeOfADecodedWordIsTheWord := by
  unfold Obligations.EncodeOfADecodedWordIsTheWord
  exact fun _ _ => encode_of_decode

theorem decodeBytes_cons_cons_eq_ok_iff {hi lo : Byte} {bytes rest : List Byte} {i : Instr} :
    decodeBytes (hi :: lo :: bytes) = .ok (i, rest) ↔
      decode (wordOfBytes hi lo) = .ok i ∧ bytes = rest := by
  simp only [decodeBytes]
  cases decode (wordOfBytes hi lo) <;> simp

theorem eq_wordOfBytes_iff {w : Word} {hi lo : Byte} :
    w = wordOfBytes hi lo ↔ highByte w = hi ∧ lowByte w = lo := by
  constructor
  · rintro rfl
    exact ⟨highByte_wordOfBytes hi lo, lowByte_wordOfBytes hi lo⟩
  · rintro ⟨rfl, rfl⟩
    exact (wordOfBytes_bytes w).symm

/-- Settles O5: the decoder refuses fewer than two bytes, and two bytes make the word of i exactly when
they are its bytes. -/
theorem theDecoderTakesExactlyTwoBytes : Obligations.TheDecoderTakesExactlyTwoBytes := by
  unfold Obligations.TheDecoderTakesExactlyTwoBytes
  intro bytes rest i
  match bytes with
  | [] | [_] => simp [decodeBytes, encodeBytes]
  | hi :: lo :: tail =>
    rw [decodeBytes_cons_cons_eq_ok_iff, decode_eq_ok_iff, eq_wordOfBytes_iff]
    simp [encodeBytes, and_assoc, eq_comm]

/-- Settles O6: nine of the words are the encoder's, and two match no pattern. -/
theorem sampleWordsDecodeAsTheOpcodeMapSays : Obligations.SampleWordsDecodeAsTheOpcodeMapSays := by
  unfold Obligations.SampleWordsDecodeAsTheOpcodeMapSays
  exact ⟨decode_encode .cls, decode_encode .ret, decode_encode (.jp 0xABC),
    decode_encode (.seImm 0x5 0x2A), decode_encode (.ldImm 0xA 0x7B),
    decode_encode (.subnReg 0x1 0x2), decode_encode (.drw 0x1 0x2 0x5), decode_encode (.skp 0x4),
    decode_encode (.storeRegs 0x3), rfl, rfl⟩

/-! A word that matches a row under its mask is assembled from its own fields (30_encoding.md R76). -/

theorem wordNNN_of_match {w : Word} {op : BitVec 4} (h : w &&& 0xF000 = wordNNN op 0) :
    wordNNN op (nnnField w) = w :=
  wordNNN_of_opField (by rw [opField_of_match h rfl, opField_wordNNN])

theorem wordXNN_of_match_op {w : Word} {op : BitVec 4} (h : w &&& 0xF000 = wordXNN op 0 0) :
    wordXNN op (xField w) (nnField w) = w :=
  wordXNN_of_opField (by rw [opField_of_match h rfl, opField_wordXNN])

theorem wordXNN_of_match {w : Word} {op : BitVec 4} {nn : Byte} (h : w &&& 0xF0FF = wordXNN op 0 nn) :
    wordXNN op (xField w) nn = w :=
  wordXNN_of_fields (by rw [opField_of_match h rfl, opField_wordXNN])
    (by rw [nnField_of_match h rfl, nnField_wordXNN])

theorem wordXYN_of_match_op {w : Word} {op : BitVec 4} (h : w &&& 0xF000 = wordXYN op 0 0 0) :
    wordXYN op (xField w) (yField w) (nField w) = w :=
  wordXYN_of_opField (by rw [opField_of_match h rfl, opField_wordXYN])

theorem wordXYN_of_match {w : Word} {op n : BitVec 4} (h : w &&& 0xF00F = wordXYN op 0 0 n) :
    wordXYN op (xField w) (yField w) n = w :=
  wordXYN_of_fields (by rw [opField_of_match h rfl, opField_wordXYN])
    (by rw [nField_of_match h rfl, nField_wordXYN])

/-- The instruction that a matching word is the word of, row by row in the order of the opcode map. -/
theorem exists_encode_eq_of_match {w : Word} {r : Word × Word} (hr : r ∈ opcodeMap)
    (h : w &&& r.1 = r.2) : ∃ i, encode i = w ∧ i.row = r := by
  have hall : w &&& 0xFFFF = w := BitVec.and_allOnes
  fin_cases hr
  exacts [⟨.cls, (hall ▸ h).symm, rfl⟩, ⟨.ret, (hall ▸ h).symm, rfl⟩,
    ⟨.jp _, wordNNN_of_match h, rfl⟩, ⟨.call _, wordNNN_of_match h, rfl⟩,
    ⟨.seImm _ _, wordXNN_of_match_op h, rfl⟩, ⟨.sneImm _ _, wordXNN_of_match_op h, rfl⟩,
    ⟨.seReg _ _, wordXYN_of_match h, rfl⟩,
    ⟨.ldImm _ _, wordXNN_of_match_op h, rfl⟩, ⟨.addImm _ _, wordXNN_of_match_op h, rfl⟩,
    ⟨.ldReg _ _, wordXYN_of_match h, rfl⟩, ⟨.orReg _ _, wordXYN_of_match h, rfl⟩,
    ⟨.andReg _ _, wordXYN_of_match h, rfl⟩, ⟨.xorReg _ _, wordXYN_of_match h, rfl⟩,
    ⟨.addReg _ _, wordXYN_of_match h, rfl⟩, ⟨.subReg _ _, wordXYN_of_match h, rfl⟩,
    ⟨.shr _ _, wordXYN_of_match h, rfl⟩, ⟨.subnReg _ _, wordXYN_of_match h, rfl⟩,
    ⟨.shl _ _, wordXYN_of_match h, rfl⟩, ⟨.sneReg _ _, wordXYN_of_match h, rfl⟩,
    ⟨.ldI _, wordNNN_of_match h, rfl⟩, ⟨.jpV0 _, wordNNN_of_match h, rfl⟩,
    ⟨.rnd _ _, wordXNN_of_match_op h, rfl⟩, ⟨.drw _ _ _, wordXYN_of_match_op h, rfl⟩,
    ⟨.skp _, wordXNN_of_match h, rfl⟩, ⟨.sknp _, wordXNN_of_match h, rfl⟩,
    ⟨.ldVxDt _, wordXNN_of_match h, rfl⟩, ⟨.ldVxK _, wordXNN_of_match h, rfl⟩,
    ⟨.ldDtVx _, wordXNN_of_match h, rfl⟩, ⟨.ldStVx _, wordXNN_of_match h, rfl⟩,
    ⟨.addI _, wordXNN_of_match h, rfl⟩, ⟨.ldF _, wordXNN_of_match h, rfl⟩,
    ⟨.ldB _, wordXNN_of_match h, rfl⟩, ⟨.storeRegs _, wordXNN_of_match h, rfl⟩,
    ⟨.loadRegs _, wordXNN_of_match h, rfl⟩]

open Laws.EncodeMatchesItsRow in
/-- The laws of the single instructions, as one. -/
theorem encode_matches_row (i : Instr) : Statement i := by
  cases i
  exacts [cls, ret, jp _, call _, seImm _ _, sneImm _ _, seReg _ _, ldImm _ _, addImm _ _,
    ldReg _ _, orReg _ _, andReg _ _, xorReg _ _, addReg _ _, subReg _ _, shr _ _, subnReg _ _,
    shl _ _, sneReg _ _, ldI _, jpV0 _, rnd _ _, drw _ _ _, skp _, sknp _, ldVxDt _, ldVxK _,
    ldDtVx _, ldStVx _, addI _, ldF _, ldB _, storeRegs _, loadRegs _]

/-- Settles O3: a matching word is the word of an instruction of the row, and every instruction's word
matches its row. -/
theorem aWordSelectsExactlyTheRowItMatches : Obligations.AWordSelectsExactlyTheRowItMatches := by
  unfold Obligations.AWordSelectsExactlyTheRowItMatches
  intro w r hr
  simp only [decode_eq_ok_iff]
  constructor
  · exact exists_encode_eq_of_match hr
  · rintro ⟨i, rfl, rfl⟩
    exact (encode_matches_row i).1

/-! The fields of a word as numbers (30_encoding.md R71). -/

theorem opField_toNat (w : Word) : (opField w).toNat = w.toNat / 0x1000 := by
  have := w.isLt
  simp only [opField, BitVec.extractLsb'_toNat, Nat.shiftRight_eq_div_pow]
  omega

theorem nField_toNat (w : Word) : (nField w).toNat = w.toNat % 16 := by
  simp [nField]

theorem nnField_toNat (w : Word) : (nnField w).toNat = w.toNat % 256 := by
  simp [nnField]

theorem nnField_eq_iff (w : Word) (b : Byte) : nnField w = b ↔ w.toNat % 256 = b.toNat := by
  rw [← nnField_toNat, BitVec.toNat_inj]

/-! What each part of the decoder rejects (30_encoding.md R77). -/

/-- The decoder answers no instruction. -/
def Rejects (a : Except DecodeError Instr) : Prop := ∃ e, a = .error e

@[simp] theorem not_rejects_ok (i : Instr) : ¬ Rejects (.ok i) := by simp [Rejects]

@[simp] theorem rejects_error (e : DecodeError) : Rejects (.error e) := ⟨e, rfl⟩

theorem rejects_ite {c : Prop} [Decidable c] {i : Instr} {a : Except DecodeError Instr} :
    Rejects (if c then .ok i else a) ↔ ¬ c ∧ Rejects a := by
  split <;> simp [*]

theorem decodeOp0_rejects_iff (w : Word) : Rejects (decodeOp0 w) ↔ w ≠ 0x00E0 ∧ w ≠ 0x00EE := by
  simp [decodeOp0, rejects_ite]

theorem decodeOp8_rejects_iff (w : Word) :
    Rejects (decodeOp8 w) ↔ w.toNat % 16 ∈ [0x8, 0x9, 0xA, 0xB, 0xC, 0xD, 0xF] := by
  simp only [decodeOp8, nField_toNat]
  split
  case h_10 =>
    simp only [rejects_error, true_iff, List.mem_cons, List.not_mem_nil, imp_false] at *
    omega
  all_goals simp [*]

theorem decodeOpE_rejects_iff (w : Word) :
    Rejects (decodeOpE w) ↔ w.toNat % 256 ∉ [0x9E, 0xA1] := by
  simp [decodeOpE, rejects_ite, nnField_eq_iff]

theorem decodeOpF_rejects_iff (w : Word) :
    Rejects (decodeOpF w) ↔
      w.toNat % 256 ∉ [0x07, 0x0A, 0x15, 0x18, 0x1E, 0x29, 0x33, 0x55, 0x65] := by
  simp [decodeOpF, rejects_ite, nnField_eq_iff]

theorem ite_nField_rejects_iff (w : Word) (i : Instr) :
    Rejects (if nField w = 0 then .ok i else .error (.unknownOpcode w)) ↔ w.toNat % 16 ≠ 0 := by
  simp [rejects_ite, ← nField_toNat, BitVec.toNat_eq]

/-- The unknown words, major opcode by major opcode (30_encoding.md R77); a major opcode that the list does
not name has an instruction for each of its words. -/
theorem decode_rejects_iff (w : Word) :
    Rejects (decode w) ↔
      (w.toNat / 0x1000 = 0x0 ∧ w ≠ 0x00E0 ∧ w ≠ 0x00EE) ∨
      (w.toNat / 0x1000 = 0x5 ∧ w.toNat % 16 ≠ 0) ∨
      (w.toNat / 0x1000 = 0x8 ∧ w.toNat % 16 ∈ [0x8, 0x9, 0xA, 0xB, 0xC, 0xD, 0xF]) ∨
      (w.toNat / 0x1000 = 0x9 ∧ w.toNat % 16 ≠ 0) ∨
      (w.toNat / 0x1000 = 0xE ∧ w.toNat % 256 ∉ [0x9E, 0xA1]) ∨
      (w.toNat / 0x1000 = 0xF ∧
        w.toNat % 256 ∉ [0x07, 0x0A, 0x15, 0x18, 0x1E, 0x29, 0x33, 0x55, 0x65]) := by
  have hlt := w.isLt
  simp only [decode, opField_toNat]
  split
  case h_1 h => simp [h, decodeOp0_rejects_iff]
  case h_6 h | h_10 h =>
    rw [ite_nField_rejects_iff]
    simp [h]
  case h_9 h => simp [h, decodeOp8_rejects_iff]
  case h_15 h => simp [h, decodeOpE_rejects_iff]
  case h_16 =>
    have h : w.toNat / 0x1000 = 0xF := by
      simp only [imp_false] at *
      omega
    simp [h, decodeOpF_rejects_iff]
  all_goals simp [*]

/-- Settles O4: the classes by major opcode, and a rejected word is named. -/
theorem unknownWordsAreTheListedClasses : Obligations.UnknownWordsAreTheListedClasses := by
  unfold Obligations.UnknownWordsAreTheListedClasses
  intro w
  have hop0 : w.toNat < 0x1000 ↔ w.toNat / 0x1000 = 0x0 := by omega
  rw [hop0]
  exact ⟨decode_rejects_iff w, fun _ => eq_unknownOpcode_of_decode⟩

end Sys2Proof

/-! ## A step of a Running core (30_encoding.md R72, R78, R83) -/

namespace Sys2Proof.Machine

theorem step_of_fetch_error {s : State} {addr : Nat} (hrun : s.run = .running)
    (hfetch : s.fetch = .error addr) : step s = raise s .memoryOutOfBounds none (some addr) := by
  simp only [step, hrun, hfetch]

theorem step_of_decode_ok {s : State} {w : Word} {i : Instr} (hrun : s.run = .running)
    (hfetch : s.fetch = .ok w) (hdecode : decode w = .ok i) : step s = exec i s := by
  simp only [step, hrun, hfetch, hdecode]

theorem step_of_decode_error {s : State} {w : Word} {e : DecodeError} (hrun : s.run = .running)
    (hfetch : s.fetch = .ok w) (hdecode : decode w = .error e) : step s = unknownWord w s := by
  simp only [step, hrun, hfetch, hdecode]

/-- Settles O7: the fetch answers the word of the two bytes. -/
theorem aStepRunsTheDecodedInstruction : Obligations.AStepRunsTheDecodedInstruction := by
  unfold Obligations.AStepRunsTheDecodedInstruction
  exact fun s i hrun hpc hdecode => step_of_decode_ok hrun (s.fetch_ok hpc) hdecode

/-- Settles O8: the fetch fails, and a raise changes the run state and the signals only. -/
theorem aFetchOutOfRangeFaults : Obligations.AFetchOutOfRangeFaults := by
  unfold Obligations.AFetchOutOfRangeFaults
  intro s hrun hfatal hpc
  rw [step_of_fetch_error hrun (s.fetch_error hfatal hpc)]
  exact raise_spec s _ _ _

theorem unknownWord_of_fatal {s : State} (w : Word) (h : s.cfg.unknownPolicy = .fatal) :
    unknownWord w s = raise s .unknownOpcode (some w) none := by
  simp only [unknownWord, h]

theorem unknownWord_of_noOp {s : State} (w : Word) (h : s.cfg.unknownPolicy = .noOp) :
    unknownWord w s = .next (s.advance.setSignals ⟨false, some ⟨s.pc, w⟩, false⟩) := by
  simp only [unknownWord, h, Signals.none]

/-- Settles O9, by the policy. -/
theorem anUnknownWordGoesByThePolicy : Obligations.AnUnknownWordGoesByThePolicy := by
  unfold Obligations.AnUnknownWordGoesByThePolicy
  intro s w e hrun hfetch hdecode
  rw [step_of_decode_error hrun hfetch hdecode]
  refine ⟨fun hfatal => ?_, fun hnoOp => ?_⟩
  · rw [unknownWord_of_fatal w hfatal]
    exact raise_spec s _ _ _
  · rw [unknownWord_of_noOp w hnoOp]
    exact ⟨_, rfl, rfl, rfl, (Frame.advance {} s).setSignals _⟩

end Sys2Proof.Machine

/-! ## Calls, returns and jumps (40_control.md R100 to R103) -/

namespace Sys2Proof.Machine

/-! Push and pop by SP, and the entry they meet (10_state.md R27, R28). -/

theorem State.push_of_sp_lt {s : State} (h : s.sp < s.cfg.stackDepth) (a : Addr) :
    s.push a = some { s with stack := s.stack.set s.sp a, sp := s.sp + 1 } :=
  if_neg (Nat.not_le.2 h)

theorem State.pop_of_sp_pos {s : State} (h : 0 < s.sp) :
    s.pop = some (s.stackEntry (s.sp - 1), { s with sp := s.sp - 1 }) := by
  obtain ⟨k, hk⟩ := Nat.exists_eq_succ_of_ne_zero h.ne'
  simp only [State.pop, hk, Nat.succ_eq_add_one, Nat.add_sub_cancel]

theorem State.stackEntry_set {s t : State} {n : Nat} {a : Addr} (h : t.stack = s.stack.set n a)
    (hn : n < s.stack.length) (k : Nat) : t.stackEntry k = if k = n then a else s.stackEntry k := by
  simp only [State.stackEntry, h, List.getD_eq_getElem?_getD]
  split
  · subst k
    rw [List.getElem?_set_self hn, Option.getD_some]
  · rw [List.getElem?_set_ne (Ne.symm ‹_›)]

/-! The two ways CALL and RET can go. -/

theorem exec_call_of_sp_lt {s : State} (h : s.sp < s.cfg.stackDepth) (nnn : Addr12) :
    exec (.call nnn) s = .next (State.setPc
      { s.advance with stack := s.stack.set s.sp (s.pc + 2), sp := s.sp + 1 } (zextAddr nnn)) := by
  simp only [exec, execCall, State.push_of_sp_lt (s := s.advance) h]
  rfl

theorem exec_call_of_full {s : State} (h : s.cfg.stackDepth ≤ s.sp) (nnn : Addr12) :
    exec (.call nnn) s = raise s .stackOverflow (some (encode (.call nnn))) none := by
  simp only [exec, execCall, (State.push_eq_none (s := s.advance)).2 h]

theorem exec_ret_of_sp_pos {s : State} (h : 0 < s.sp) :
    exec .ret s =
      .next (State.setPc { s.advance with sp := s.sp - 1 } (s.stackEntry (s.sp - 1))) := by
  simp only [exec, execRet, State.pop_of_sp_pos (s := s.advance) h]
  rfl

theorem exec_ret_of_empty {s : State} (h : s.sp = 0) :
    exec .ret s = raise s .stackUnderflow (some (encode .ret)) none := by
  simp only [exec, execRet, (State.pop_eq_none (s := s.advance)).2 h]

@[simp] theorem zextAddr_toNat (nnn : Addr12) : (zextAddr nnn).toNat = nnn.toNat := by
  simp only [zextAddr, BitVec.toNat_setWidth]
  omega

/-- Settles O24, by whether the stack has room. -/
theorem callPushesTheReturnAddress : Obligations.CallPushesTheReturnAddress := by
  unfold Obligations.CallPushesTheReturnAddress
  refine ⟨fun w h => decode_eq_ok_iff.2 (wordNNN_of_match h),
    fun s nnn hlen => ⟨fun hroom => ?_, fun hfull => ?_⟩⟩
  · exact ⟨_, exec_call_of_sp_lt hroom nnn, zextAddr_toNat nnn, rfl,
      State.stackEntry_set rfl (hlen ▸ hroom), rfl,
      ((Frame.advance _ s).setStack rfl _ _).setPc _⟩
  · rw [exec_call_of_full hfull.ge]
    exact raise_spec s _ _ _

/-- Settles O25, by whether the stack has an entry. -/
theorem returnGoesToThePoppedAddress : Obligations.ReturnGoesToThePoppedAddress := by
  unfold Obligations.ReturnGoesToThePoppedAddress
  have hall (w : Word) : w &&& 0xFFFF = w := BitVec.and_allOnes
  refine ⟨fun w h => decode_eq_ok_iff.2 (hall w ▸ h).symm, fun s => ⟨fun hpos => ?_, fun hempty => ?_⟩⟩
  · exact ⟨_, exec_ret_of_sp_pos hpos, rfl, rfl, rfl, rfl,
      ((Frame.advance _ s).setStack rfl s.stack _).setPc _⟩
  · rw [exec_ret_of_empty hempty]
    exact raise_spec s _ _ _

/-- Settles O26: the return pops the entry that the call pushed, and no other entry changes. -/
theorem callThenReturnComesBack : Obligations.CallThenReturnComesBack := by
  unfold Obligations.CallThenReturnComesBack
  intro s nnn hlen hroom
  obtain ⟨t, hcall, -, hsp, hentry, -, -⟩ := (callPushesTheReturnAddress.2 s nnn hlen).1 hroom
  obtain ⟨u, hret, hpc, husp, hstack, -, -⟩ := (returnGoesToThePoppedAddress.2 t).1 (by omega)
  have htop : t.sp - 1 = s.sp := by omega
  refine ⟨t, u, hcall, hret, ?_, husp.trans htop, fun k hk => ?_⟩
  · rw [hpc, htop, hentry, if_pos rfl]
  · rw [State.stackEntry, hstack, ← State.stackEntry, hentry, if_neg hk.ne]

theorem jumpRegister_eq (cfg : Config) (nnn : Addr12) :
    jumpRegister cfg nnn = if cfg.jumpOffset = .v0 then 0 else nnn.extractLsb' 8 4 := by
  unfold jumpRegister
  cases cfg.jumpOffset <;> rfl

/-- The largest sum is 4095 + 255, so the target does not wrap. -/
theorem State.jumpTarget_toNat (s : State) (nnn : Addr12) :
    (s.jumpTarget nnn).toNat = nnn.toNat + (s.v (jumpRegister s.cfg nnn)).toNat := by
  have hnnn := nnn.isLt
  have hv := (s.v (jumpRegister s.cfg nnn)).isLt
  rw [State.jumpTarget, BitVec.toNat_ofNat]
  omega

/-- Settles O23: both are the advance and a write of pc. -/
theorem jumpsGoToTheirTargets : Obligations.JumpsGoToTheirTargets := by
  unfold Obligations.JumpsGoToTheirTargets
  refine ⟨fun w h => decode_eq_ok_iff.2 (wordNNN_of_match h),
    fun w h => decode_eq_ok_iff.2 (wordNNN_of_match h), fun s nnn => ⟨?_, ?_⟩⟩
  · exact ⟨_, rfl, zextAddr_toNat nnn, rfl, (Frame.advance {} s).setPc _⟩
  · refine ⟨_, rfl, ?_, rfl, (Frame.advance {} s).setPc _⟩
    rw [State.setPc_pc, State.jumpTarget_toNat, jumpRegister_eq, apply_ite s.v]

end Sys2Proof.Machine

/-! ## Skips (40_control.md R104 to R107) -/

namespace Sys2Proof.Machine

/-- A skip after the advance: pc moves on by one word more if the condition holds, and nothing else
changes. -/
theorem exec_skip_spec {i : Instr} {s : State} {p : Prop} [Decidable p]
    (h : exec i s = .next (s.advance.skipIf (decide p))) :
    ∃ t, exec i s = .next t ∧ t.pc = s.pc + (if p then 4 else 2) ∧ t.signals = Signals.none ∧
      Frame {} s t := by
  refine ⟨_, h, ?_, by simp, (Executes.advance.skipIf _).frame⟩
  rw [State.skipIf_pc, State.advance_pc]
  by_cases hp : p
  · simp [hp, BitVec.add_assoc]
  · simp [hp]

/-- The skip of an instruction whose condition is that a comparison fails. -/
theorem exec_skip_not_spec {i : Instr} {s : State} {p : Prop} [Decidable p]
    (h : exec i s = .next (s.advance.skipIf (decide (¬ p)))) :
    ∃ t, exec i s = .next t ∧ t.pc = s.pc + (if p then 2 else 4) ∧ t.signals = Signals.none ∧
      Frame {} s t := by
  simpa only [ite_not] using exec_skip_spec h

/-- Settles O27, by the rule of a skip. -/
theorem immediateSkipsCompareTheRegister : Obligations.ImmediateSkipsCompareTheRegister := by
  unfold Obligations.ImmediateSkipsCompareTheRegister
  exact ⟨fun w h => decode_eq_ok_iff.2 (wordXNN_of_match_op h),
    fun w h => decode_eq_ok_iff.2 (wordXNN_of_match_op h),
    fun s x nn => ⟨exec_skip_spec rfl, exec_skip_not_spec rfl⟩⟩

/-- Settles O28, by the rule of a skip. -/
theorem registerSkipsCompareTheRegisters : Obligations.RegisterSkipsCompareTheRegisters := by
  unfold Obligations.RegisterSkipsCompareTheRegisters
  exact ⟨fun w h => decode_eq_ok_iff.2 (wordXYN_of_match h),
    fun w h => decode_eq_ok_iff.2 (wordXYN_of_match h),
    fun s x y => ⟨exec_skip_spec rfl, exec_skip_not_spec rfl⟩⟩

end Sys2Proof.Machine

/-! ## Loads and ALU (41_alu.md R120 to R137) -/

namespace Sys2Proof.Machine

/-! What an instruction leaves that moves pc to the next word and raises no signal: one rule for each
update that this family makes. -/

section Rules

variable {w : Writes} {s t : State}

theorem Completes.advance : Completes w s s.advance := ⟨rfl, rfl, Frame.advance w s⟩

theorem Completes.setV (h : Completes w s t) {x : RegIdx} (hx : w.reg x = true) {b : Byte} :
    Completes w s (t.setV x b) := { h with frame := h.frame.setV hx b }

theorem Completes.setResult (h : Completes w s t) {x : RegIdx} (hx : w.reg x = true)
    (hf : w.reg 0xF = true) {b : Byte} {c : Bool} : Completes w s (t.setResult x b c) :=
  (h.setV hx).setV hf

theorem Completes.countDraw (h : Completes w s t) (hw : w.draws = true) :
    Completes w s t.countDraw := { h with frame := h.frame.countDraw hw }

end Rules

theorem State.v_setV_self (s : State) (x : RegIdx) (b : Byte) : (s.setV x b).v x = b := by
  rw [State.v_setV, if_pos rfl]

/-- An instruction that writes Vx and no flag. -/
theorem exec_setV_spec {i : Instr} {s : State} {x : RegIdx} {b : Byte}
    (h : exec i s = .next (s.advance.setV x b)) :
    ∃ t, exec i s = .next t ∧ t.v x = b ∧ Completes { reg := fun j => j = x } s t :=
  ⟨_, h, State.v_setV_self _ x b, Completes.advance.setV (by simp)⟩

/-- An instruction that writes Vx and, last, the flag (R133): for x = 0xF the flag remains. -/
theorem exec_setResult_spec {i : Instr} {s : State} {x : RegIdx} {b f : Byte} {c : Bool}
    (h : exec i s = .next (s.advance.setResult x b c)) (hf : flagByte c = f) :
    ∃ t, exec i s = .next t ∧ (∀ j, t.v j = if j = 0xF then f else if j = x then b else s.v j) ∧
      Completes { reg := fun j => j = x || j = 0xF } s t :=
  ⟨_, h, fun j => hf ▸ State.v_setResult _ x b c j,
    Completes.advance.setResult (by simp) (by simp)⟩

/-! The results of the model, computed on natural numbers, are the operations on bytes (R131). -/

theorem addBytes_eq (a b : Byte) : addBytes a b = a + b := rfl

theorem subBytes_eq (a b : Byte) : subBytes a b = a - b := by
  apply BitVec.eq_of_toNat_eq
  simp only [subBytes, BitVec.toNat_ofInt, BitVec.toNat_sub]
  omega

theorem shiftRight_eq (b : Byte) : shiftRight b = b >>> 1 := by
  apply BitVec.eq_of_toNat_eq
  simp only [shiftRight, BitVec.toNat_ofNat, BitVec.toNat_ushiftRight, Nat.shiftRight_eq_div_pow]
  omega

theorem shiftLeft_eq (b : Byte) : shiftLeft b = b <<< 1 := by
  apply BitVec.eq_of_toNat_eq
  simp only [shiftLeft, BitVec.toNat_ofNat, BitVec.toNat_shiftLeft, Nat.shiftLeft_eq, pow_one]

/-! The flags as bytes. -/

theorem flagByte_decide (p : Prop) [Decidable p] : flagByte (decide p) = if p then 1 else 0 := by
  simp [flagByte]

theorem flagByte_decide_toNat (p : Prop) [Decidable p] :
    (flagByte (decide p)).toNat = if p then 1 else 0 := by
  rw [flagByte_decide, apply_ite BitVec.toNat]
  rfl

theorem flagByte_shiftedOutRight (b : Byte) : flagByte (shiftedOutRight b) = b &&& 1 := by
  have hbit : (b &&& 1).toNat = b.toNat % 2 := Nat.and_one_is_mod _
  apply BitVec.eq_of_toNat_eq
  rw [shiftedOutRight, flagByte_decide_toNat, hbit]
  split <;> omega

theorem flagByte_shiftedOutLeft (b : Byte) : flagByte (shiftedOutLeft b) = b >>> 7 := by
  have hlt := b.isLt
  apply BitVec.eq_of_toNat_eq
  rw [shiftedOutLeft, flagByte_decide_toNat, BitVec.toNat_ushiftRight, Nat.shiftRight_eq_div_pow]
  split <;> omega

theorem State.shiftSource_eq (s : State) (x y : RegIdx) :
    s.shiftSource x y = if s.cfg.shiftSrc = .vx then s.v x else s.v y := by
  unfold State.shiftSource
  cases s.cfg.shiftSrc <;> rfl

/-! ADD Vx, nn made many times (R121). -/

theorem State.after_of_exec {i : Instr} {s t : State} (h : exec i s = .next t) :
    State.after i s = t := by
  simp only [State.after, h]

theorem State.v_after_addImm (s : State) (x j : RegIdx) (nn : Byte) :
    (State.after (.addImm x nn) s).v j = if j = x then s.v x + nn else s.v j := by
  rw [State.after_of_exec (t := s.advance.setV x (s.v x + nn)) rfl, State.v_setV, State.v_advance]

theorem State.v_iterate_addImm (s : State) (x j : RegIdx) (nn : Byte) (n : ℕ) :
    ((State.after (.addImm x nn))^[n] s).v j = if j = x then s.v x + n • nn else s.v j := by
  induction n generalizing j with
  | zero => by_cases h : j = x <;> simp [h]
  | succ n ih =>
    rw [Function.iterate_succ_apply', State.v_after_addImm, ih, ih]
    by_cases h : j = x
    · rw [if_pos h, if_pos rfl, if_pos h, succ_nsmul, add_assoc]
    · rw [if_neg h, if_neg h, if_neg h]

/-- Settles O30: Vx has grown by 256 times 1, which is 0 modulo 256. -/
theorem addingOne256TimesRestoresTheRegister :
    Obligations.AddingOne256TimesRestoresTheRegister := by
  unfold Obligations.AddingOne256TimesRestoresTheRegister
  intro s x j
  have hzero : 256 • (1 : Byte) = 0 := by decide
  rw [State.v_iterate_addImm, hzero, add_zero]
  split
  · rw [‹j = x›]
  · rfl

/-- Settles O29, by the rule of a write of Vx. -/
theorem immediateLoadAndAddWriteOnlyVx : Obligations.ImmediateLoadAndAddWriteOnlyVx := by
  unfold Obligations.ImmediateLoadAndAddWriteOnlyVx
  exact ⟨fun w h => decode_eq_ok_iff.2 (wordXNN_of_match_op h),
    fun w h => decode_eq_ok_iff.2 (wordXNN_of_match_op h),
    fun s x nn => ⟨exec_setV_spec rfl, addBytes_eq (s.v x) nn ▸ exec_setV_spec rfl⟩⟩

/-- Settles O31, by the rule of a write of Vx. -/
theorem assignAndLogicWriteOnlyVx : Obligations.AssignAndLogicWriteOnlyVx := by
  unfold Obligations.AssignAndLogicWriteOnlyVx
  exact ⟨fun w h => decode_eq_ok_iff.2 (wordXYN_of_match h),
    fun w h => decode_eq_ok_iff.2 (wordXYN_of_match h),
    fun w h => decode_eq_ok_iff.2 (wordXYN_of_match h),
    fun w h => decode_eq_ok_iff.2 (wordXYN_of_match h),
    fun s x y => ⟨exec_setV_spec rfl, exec_setV_spec rfl, exec_setV_spec rfl, exec_setV_spec rfl⟩⟩

/-- Settles O32, by the rule of a result and its flag. -/
theorem addSetsTheCarryLast : Obligations.AddSetsTheCarryLast := by
  unfold Obligations.AddSetsTheCarryLast
  refine ⟨fun w h => decode_eq_ok_iff.2 (wordXYN_of_match h), fun s x y => ?_⟩
  rw [← addBytes_eq]
  exact exec_setResult_spec rfl (flagByte_decide _)

/-- Settles O33, by the rule of a result and its flag. -/
theorem subtractionsSetNotBorrowLast : Obligations.SubtractionsSetNotBorrowLast := by
  unfold Obligations.SubtractionsSetNotBorrowLast
  refine ⟨fun w h => decode_eq_ok_iff.2 (wordXYN_of_match h),
    fun w h => decode_eq_ok_iff.2 (wordXYN_of_match h), fun s x y => ?_⟩
  rw [← subBytes_eq, ← subBytes_eq]
  exact ⟨exec_setResult_spec rfl (flagByte_decide _), exec_setResult_spec rfl (flagByte_decide _)⟩

/-- Settles O34, by the rule of a result and its flag, both of the source. -/
theorem shiftsSetTheBitShiftedOutLast : Obligations.ShiftsSetTheBitShiftedOutLast := by
  unfold Obligations.ShiftsSetTheBitShiftedOutLast
  refine ⟨fun w h => decode_eq_ok_iff.2 (wordXYN_of_match h),
    fun w h => decode_eq_ok_iff.2 (wordXYN_of_match h), fun s x y src hsrc => ?_⟩
  rw [← State.shiftSource_eq] at hsrc
  subst hsrc
  rw [← shiftRight_eq, ← shiftLeft_eq]
  exact ⟨exec_setResult_spec rfl (flagByte_shiftedOutRight _),
    exec_setResult_spec rfl (flagByte_shiftedOutLeft _)⟩

/-- Settles O35: the draw is counted, and its masked byte written to Vx. -/
theorem randomIsADrawMaskedByTheImmediate : Obligations.RandomIsADrawMaskedByTheImmediate := by
  unfold Obligations.RandomIsADrawMaskedByTheImmediate
  refine ⟨fun w h => decode_eq_ok_iff.2 (wordXNN_of_match_op h),
    fun s x nn => ⟨s.advance.countDraw.setV x (Config.randomByte s.draws &&& nn), rfl, ?_, rfl, ?_⟩⟩
  · exact State.v_setV_self _ x _
  · exact (Completes.advance.countDraw rfl).setV (by simp)

end Sys2Proof.Machine

/-! ## Index register and memory (42_index_memory.md R150 to R155) -/

namespace Sys2Proof.Machine

/-- An instruction that executed without writing pc, and left no signal, has moved pc to the next word. -/
theorem Executes.completes {w : Writes} {s t : State} (h : Executes w false s t)
    (hsignals : t.signals = Signals.none) : Completes w s t :=
  ⟨h.pc rfl, hsignals, h.frame⟩

/-! A block that leaves `mem` under Fatal (60_exceptions.md R213, R216). -/

theorem exec_ldB_of_not_blockResolves {s : State} {x : RegIdx} (h : s.blockResolves 3 = false) :
    exec (.ldB x) s =
      raise s .memoryOutOfBounds (some (encode (.ldB x))) (some (max s.index.toNat 4096)) := by
  have hwrite := State.advance_writeBytes_of_not_blockResolves (bs := decimalDigits (s.v x)) h
  simp only [exec, execLdB, hwrite]

theorem exec_storeRegs_of_not_blockResolves {s : State} {x : RegIdx}
    (h : s.blockResolves (x.toNat + 1) = false) :
    exec (.storeRegs x) s =
      raise s .memoryOutOfBounds (some (encode (.storeRegs x))) (some (max s.index.toNat 4096)) := by
  rw [← s.regBlock_length x] at h
  simp only [exec, execStoreRegs, State.advance_writeBytes_of_not_blockResolves h]

theorem exec_loadRegs_of_not_blockResolves {s : State} {x : RegIdx}
    (h : s.blockResolves (x.toNat + 1) = false) :
    exec (.loadRegs x) s =
      raise s .memoryOutOfBounds (some (encode (.loadRegs x))) (some (max s.index.toNat 4096)) := by
  simp only [exec, execLoadRegs, State.readBytes_of_not_blockResolves h]

theorem exec_drw_of_not_blockResolves {s : State} {x y : RegIdx} {n : BitVec 4}
    (h : s.blockResolves n.toNat = false) :
    exec (.drw x y n) s =
      raise s .memoryOutOfBounds (some (encode (.drw x y n))) (some (max s.index.toNat 4096)) := by
  simp only [exec, execDrw, State.readBytes_of_not_blockResolves h]

/-- Settles O44: none of the four blocks resolves, and what each instruction raises then is a fault as
recorded. -/
theorem aBlockOutOfRangeFaultsAtTheLowestAddress :
    Obligations.ABlockOutOfRangeFaultsAtTheLowestAddress := by
  unfold Obligations.ABlockOutOfRangeFaultsAtTheLowestAddress
  intro s x y n hfatal
  have hblock (k : Nat) (hend : 4096 < s.index.toNat + k) (hpos : 0 < k) : s.blockResolves k = false :=
    (s.blockResolves_eq_false k).2 ⟨hfatal, hend, hpos⟩
  refine ⟨fun hend => ?_, fun hend => ?_, fun hend => ?_, fun hend hpos => ?_⟩
  · rw [exec_ldB_of_not_blockResolves (hblock _ hend (by decide))]
    exact raise_spec s _ _ _
  · rw [exec_storeRegs_of_not_blockResolves (hblock _ hend x.toNat.succ_pos)]
    exact raise_spec s _ _ _
  · rw [exec_loadRegs_of_not_blockResolves (hblock _ hend x.toNat.succ_pos)]
    exact raise_spec s _ _ _
  · rw [exec_drw_of_not_blockResolves (hblock _ hend hpos)]
    exact raise_spec s _ _ _

/-! A block that resolves. -/

/-- A block stored from I after the fetch advance, the only effect of FX33 and of FX55. -/
theorem State.advance_writeBytes_completes {s t : State} {bs : List Byte}
    (h : s.advance.writeBytes s.index.toNat bs = .ok t) :
    Completes { byte := s.storesTo bs.length } s t :=
  (Executes.advance.writeBytes h fun _ ha => State.resolve_ne_of_storesTo ha).completes
    (by rw [State.writeBytes_mem bs h, State.setMem_signals, State.advance_signals])

theorem exec_ldB_of_blockResolves {s : State} {x : RegIdx} (h : s.blockResolves 3 = true) :
    ∃ t, exec (.ldB x) s = .next t ∧
      s.advance.writeBytes s.index.toNat (decimalDigits (s.v x)) = .ok t := by
  obtain ⟨t, ht⟩ := State.advance_writeBytes_of_blockResolves (bs := decimalDigits (s.v x)) h
  exact ⟨t, by simp only [exec, execLdB, ht], ht⟩

/-- No decimal digit is cut when it is made a byte. -/
theorem ofNat_byte_toNat_of_lt_ten {d : Nat} (h : d < 10) : (BitVec.ofNat 8 d).toNat = d :=
  Nat.mod_eq_of_lt (by omega)

/-- Settles O39: the bytes of the block are the digits, and each digit is below 10. -/
theorem decimalDigitsAreStored : Obligations.DecimalDigitsAreStored := by
  unfold Obligations.DecimalDigitsAreStored
  refine ⟨fun w h => decode_eq_ok_iff.2 (wordXNN_of_match h), fun s x hm hblock => ?_⟩
  obtain ⟨t, hexec, hwrite⟩ := exec_ldB_of_blockResolves (x := x) hblock
  have hbyte (k : Nat) (hk : k < 3) :
      t.byteAt ((s.index.toNat + k) % 4096) = (decimalDigits (s.v x)).getD k 0 :=
    State.byteAt_advance_writeBytes (bs := decimalDigits (s.v x)) hm (by simp [decimalDigits]) hblock
      hwrite hk
  have hlt := (s.v x).isLt
  refine ⟨t, hexec, ?_, ?_, ?_, State.advance_writeBytes_completes hwrite⟩
  · exact (congrArg _ (hbyte 0 (by decide))).trans (ofNat_byte_toNat_of_lt_ten (by omega))
  · exact (congrArg _ (hbyte 1 (by decide))).trans (ofNat_byte_toNat_of_lt_ten (by omega))
  · exact (congrArg _ (hbyte 2 (by decide))).trans (ofNat_byte_toNat_of_lt_ten (by omega))

theorem completes_of_exec_storeRegs {s t : State} {x : RegIdx}
    (hblock : s.blockResolves (x.toNat + 1) = true) (h : exec (.storeRegs x) s = .next t) :
    Completes { byte := s.storesTo (x.toNat + 1) } s t := by
  rw [← s.regBlock_length x]
  exact State.advance_writeBytes_completes (writeBytes_of_exec_storeRegs hblock h)

/-- Settles O40: FX55 is the store of the block V0 to Vx. -/
theorem storeRegistersStoresTheBlock : Obligations.StoreRegistersStoresTheBlock := by
  unfold Obligations.StoreRegistersStoresTheBlock
  refine ⟨fun w h => decode_eq_ok_iff.2 (wordXNN_of_match h), fun s x hm hblock => ?_⟩
  obtain ⟨t, hexec, -⟩ := exec_storeRegs_leaves x s
  exact ⟨t, hexec, fun _ => byteAt_of_exec_storeRegs hm hblock hexec,
    completes_of_exec_storeRegs hblock hexec⟩

/-- The bytes of `mem` that FX65 reads, as many as it loads registers (42_index_memory.md R155). -/
def State.memBlock (s : State) (x : RegIdx) : List Byte :=
  (List.range (x.toNat + 1)).map fun k => s.byteAt ((s.index.toNat + k) % 4096)

@[simp] theorem State.memBlock_length (s : State) (x : RegIdx) : (s.memBlock x).length = x.toNat + 1 := by
  simp [State.memBlock]

theorem State.memBlock_getD (s : State) {x k : RegIdx} (h : k ≤ x) :
    (s.memBlock x).getD k.toNat 0 = s.byteAt ((s.index.toNat + k.toNat) % 4096) := by
  have hk : k.toNat < x.toNat + 1 := Nat.lt_succ_of_le h
  simp [State.memBlock, hk]

theorem exec_loadRegs_of_blockResolves {s : State} {x : RegIdx}
    (h : s.blockResolves (x.toNat + 1) = true) :
    exec (.loadRegs x) s = .next (s.advance.setRegBlock 0 (s.memBlock x)) := by
  have hread := s.readBytes_ok _ _ ((s.blockResolves_iff _).1 h)
  simp only [exec, execLoadRegs, hread, State.memBlock]

theorem State.v_setRegBlock_memBlock (s : State) {x k : RegIdx} (h : k ≤ x) :
    (s.advance.setRegBlock 0 (s.memBlock x)).v k = s.byteAt ((s.index.toNat + k.toNat) % 4096) := by
  have hk : k.toNat < x.toNat + 1 := Nat.lt_succ_of_le h
  have hx := x.isLt
  rw [State.v_setRegBlock _ _ _ (by rw [State.memBlock_length]; omega), State.memBlock_length,
    if_pos ⟨Nat.zero_le _, by omega⟩, Nat.sub_zero, State.memBlock_getD s h]

theorem State.setRegBlock_memBlock_completes (s : State) (x : RegIdx) :
    Completes { reg := fun j => decide (j ≤ x) } s (s.advance.setRegBlock 0 (s.memBlock x)) := by
  refine (Executes.advance.setRegBlock fun j hj => ?_).completes ?_
  · rw [State.memBlock_length] at hj
    exact decide_eq_true (BitVec.le_def.2 (by rw [BitVec.toNat_ofNat]; omega))
  · rw [State.setRegBlock_rest, State.advance_signals]

/-- Settles O41: FX65 is a write of the bytes of the block to V0 on. -/
theorem loadRegistersLoadsTheBlock : Obligations.LoadRegistersLoadsTheBlock := by
  unfold Obligations.LoadRegistersLoadsTheBlock
  exact ⟨fun w h => decode_eq_ok_iff.2 (wordXNN_of_match h), fun s x hblock =>
    ⟨_, exec_loadRegs_of_blockResolves hblock, fun _ => s.v_setRegBlock_memBlock,
      s.setRegBlock_memBlock_completes x⟩⟩

/-- Settles O42: the load reads each byte from where the store put it. -/
theorem storeThenLoadGivesTheRegistersBack : Obligations.StoreThenLoadGivesTheRegistersBack := by
  unfold Obligations.StoreThenLoadGivesTheRegistersBack
  intro s t u x hm hblock hstore hmem hindex hcfg
  have hframe := (completes_of_exec_storeRegs hblock hstore).frame
  have hus : u.index = s.index := hindex.trans (hframe.index rfl)
  have hublock : u.blockResolves (x.toNat + 1) = true :=
    (State.blockResolves_congr hus (hcfg.trans hframe.cfg) _).trans hblock
  obtain ⟨w, hload, hv, -⟩ := loadRegistersLoadsTheBlock.2 u x hublock
  refine ⟨w, hload, fun k hk => ?_⟩
  calc w.v k = u.byteAt ((u.index.toNat + k.toNat) % 4096) := hv k hk
    _ = t.byteAt ((s.index.toNat + k.toNat) % 4096) := by rw [State.byteAt_congr hmem hcfg, hus]
    _ = s.v k := byteAt_of_exec_storeRegs hm hblock hstore hk

/-! Writes of I. -/

theorem Completes.advance_setIndex {w : Writes} (hw : w.index = true) {s : State} {a : Addr} :
    Completes w s (s.advance.setIndex a) :=
  (Executes.advance.setIndex hw).completes rfl

/-- The largest glyph address is 0x050 + 5 * 255, so it does not wrap. -/
theorem glyphAddr_toNat (vx : Byte) : (glyphAddr vx).toNat = 0x050 + 5 * vx.toNat := by
  have hlt := vx.isLt
  rw [glyphAddr, BitVec.toNat_ofNat]
  omega

/-- Settles O36, by the zero extension of nnn. -/
theorem loadIndexZeroExtends : Obligations.LoadIndexZeroExtends := by
  unfold Obligations.LoadIndexZeroExtends
  exact ⟨fun w h => decode_eq_ok_iff.2 (wordNNN_of_match h),
    fun s nnn => ⟨_, rfl, zextAddr_toNat nnn, .advance_setIndex rfl⟩⟩

/-- Settles O37, by the address of a glyph. -/
theorem glyphAddressIsFiveTimesTheDigit : Obligations.GlyphAddressIsFiveTimesTheDigit := by
  unfold Obligations.GlyphAddressIsFiveTimesTheDigit
  exact ⟨fun w h => decode_eq_ok_iff.2 (wordXNN_of_match h),
    fun s x => ⟨_, rfl, glyphAddr_toNat _, .advance_setIndex rfl⟩⟩

theorem addIndex_toNat (i : Addr) (vx : Byte) :
    (addIndex i vx).toNat = (i.toNat + vx.toNat) % 65536 :=
  BitVec.toNat_ofNat _ _

theorem exec_addI_of_quirk_off {s : State} (h : s.cfg.fx1eSetsVf = false) (x : RegIdx) :
    exec (.addI x) s = .next (s.advance.setIndex (addIndex s.index (s.v x))) := by
  simp [exec, execAddI, h]

theorem exec_addI_of_quirk_on {s : State} (h : s.cfg.fx1eSetsVf = true) (x : RegIdx) :
    exec (.addI x) s = .next ((s.advance.setIndex (addIndex s.index (s.v x))).setFlag
      (pastMemory s.index (s.v x))) := by
  simp [exec, execAddI, h]

/-- Settles O38, by the quirk. -/
theorem addIndexWrapsAndFlagsByTheQuirk : Obligations.AddIndexWrapsAndFlagsByTheQuirk := by
  unfold Obligations.AddIndexWrapsAndFlagsByTheQuirk
  refine ⟨fun w h => decode_eq_ok_iff.2 (wordXNN_of_match h), fun s x => ?_⟩
  cases hquirk : s.cfg.fx1eSetsVf with
  | false =>
    exact ⟨_, exec_addI_of_quirk_off hquirk x, addIndex_toNat _ _, fun j => by simp,
      .advance_setIndex rfl⟩
  | true =>
    refine ⟨_, exec_addI_of_quirk_on hquirk x, addIndex_toNat _ _, fun j => ?_,
      (Completes.advance_setIndex rfl).setV (by simp)⟩
    rw [State.v_setFlag, pastMemory, flagByte_decide]
    simp

end Sys2Proof.Machine

/-! ## Display (43_display.md R171 to R175) -/

namespace Sys2Proof.Machine

/-- CLS as one chain of updates, each of what the access matrix gives it. -/
theorem execCls_executes (s : State) : Executes { fb := true } false s
    ((s.advance.setFb Framebuffer.clear).setSignals drawSignals) :=
  (Executes.advance.setFb rfl).setSignals rfl

/-- Settles O45: CLS is a write of the clear framebuffer. -/
theorem clearTurnsEveryPixelOff : Obligations.ClearTurnsEveryPixelOff := by
  unfold Obligations.ClearTurnsEveryPixelOff
  have hall (w : Word) : w &&& 0xFFFF = w := BitVec.and_allOnes
  exact ⟨fun w h => decode_eq_ok_iff.2 (hall w ▸ h).symm, fun s =>
    ⟨_, rfl, Framebuffer.pixel_clear, rfl, rfl, (execCls_executes s).frame⟩⟩

/-! DXYN whose rows resolve (R172, R173). -/

/-- The bytes of `mem` that DXYN reads as the rows of its sprite (20_memory.md R53). -/
def State.spriteRows (s : State) (n : BitVec 4) : List Byte :=
  (List.range n.toNat).map fun k => s.byteAt ((s.index.toNat + k) % 4096)

@[simp] theorem State.spriteRows_length (s : State) (n : BitVec 4) : (s.spriteRows n).length = n.toNat := by
  simp [State.spriteRows]

theorem State.spriteRows_getD (s : State) {n : BitVec 4} {k : Nat} (h : k < n.toNat) :
    (s.spriteRows n).getD k 0 = s.byteAt ((s.index.toNat + k) % 4096) := by
  simp [State.spriteRows, h]

/-- The framebuffer and the collision that DXYN plots. -/
def State.spritePlot (s : State) (x y : RegIdx) (n : BitVec 4) : Plot :=
  plotRows (startColumn (s.v x)) (startRow (s.v y)) (s.spriteRows n) ⟨s.fb, false⟩

theorem exec_drw_of_blockResolves {s : State} {x y : RegIdx} {n : BitVec 4}
    (h : s.blockResolves n.toNat = true) :
    exec (.drw x y n) s = .next (((s.advance.setFb (s.spritePlot x y n).fb).setFlag
      (s.spritePlot x y n).collide).setSignals drawSignals) := by
  have hread := s.readBytes_ok _ _ ((s.blockResolves_iff _).1 h)
  simp only [exec, execDrw, hread, State.spritePlot, State.spriteRows]

/-- DXYN as one chain of updates, VF the only register among them. -/
theorem execDrw_executes (s : State) {fb : Framebuffer} {collide : Bool} :
    Executes { reg := fun j => j = 0xF, fb := true } false s
      (((s.advance.setFb fb).setFlag collide).setSignals drawSignals) :=
  ((Executes.advance.setFb rfl).setV rfl).setSignals rfl

/-- The pixels that the plot hits are the sprite's pixels on the screen. -/
theorem State.spriteHit_spriteRows_iff (s : State) (x y : RegIdx) (n : BitVec 4) (py px : Nat) :
    spriteHit (startColumn (s.v x)) (startRow (s.v y)) (s.spriteRows n) py px = true ↔
      py < 32 ∧ px < 64 ∧ s.spritePixel x y n py px = true := by
  simp only [spriteHit, State.spritePixel, startColumn, startRow, spriteBit, State.spriteRows_length,
    Bool.and_eq_true, decide_eq_true_eq]
  constructor
  · rintro ⟨⟨htop, hbottom, hleft, hright, hpy, hpx⟩, hbit⟩
    rw [s.spriteRows_getD (by omega)] at hbit
    exact ⟨hpy, hpx, ⟨htop, hbottom, hleft, hright⟩, hbit⟩
  · rintro ⟨hpy, hpx, ⟨htop, hbottom, hleft, hright⟩, hbit⟩
    rw [s.spriteRows_getD (by omega)]
    exact ⟨⟨htop, hbottom, hleft, hright, hpy, hpx⟩, hbit⟩

theorem State.pixel_spritePlot (s : State) (x y : RegIdx) (n : BitVec 4) {py px : Nat} (hpy : py < 32)
    (hpx : px < 64) :
    (s.spritePlot x y n).fb.pixel py px = (s.fb.pixel py px ^^ s.spritePixel x y n py px) := by
  have hhit := s.spriteHit_spriteRows_iff x y n py px
  simp only [hpy, hpx, true_and, ← Bool.eq_iff_iff] at hhit
  rw [State.spritePlot, plotRows_pixel, hhit]

theorem State.collide_spritePlot_iff (s : State) (x y : RegIdx) (n : BitVec 4) :
    (s.spritePlot x y n).collide = true ↔ ∃ py px, py < 32 ∧ px < 64 ∧
      s.spritePixel x y n py px = true ∧ s.fb.pixel py px = true := by
  simp only [State.spritePlot, plotRows_collide, State.spriteHit_spriteRows_iff, Bool.false_eq_true,
    false_or, and_assoc]

theorem flagByte_eq_zero_or_one (b : Bool) : flagByte b = 0 ∨ flagByte b = 1 := by
  cases b <;> decide

theorem flagByte_eq_one_iff (b : Bool) : flagByte b = 1 ↔ b = true := by
  cases b <;> decide

/-- Settles O46: DXYN writes the plot's framebuffer and, last, its collision to VF. -/
theorem drawXorsTheClippedSprite : Obligations.DrawXorsTheClippedSprite := by
  unfold Obligations.DrawXorsTheClippedSprite
  refine ⟨fun w h => decode_eq_ok_iff.2 (wordXYN_of_match_op h), fun s x y n hblock =>
    ⟨_, exec_drw_of_blockResolves hblock, fun py px hpy hpx => s.pixel_spritePlot x y n hpy hpx, ?_, ?_,
      rfl, rfl, (execDrw_executes s).frame⟩⟩
  · rw [State.v_setSignals, State.v_setFlag, if_pos rfl]
    exact flagByte_eq_zero_or_one _
  · rw [State.v_setSignals, State.v_setFlag, if_pos rfl, flagByte_eq_one_iff]
    exact s.collide_spritePlot_iff x y n

/-! Two draws (95_test_vectors.md S9). -/

/-- A draw leaves the sprite and its place alone, unless VF is one of the place's registers (R172). -/
theorem Frame.spritePixel_eq {s t : State} (h : Frame { reg := fun j => j = 0xF, fb := true } s t)
    {x y : RegIdx} (hx : x ≠ 0xF) (hy : y ≠ 0xF) (n : BitVec 4) (py px : Nat) :
    t.spritePixel x y n py px = s.spritePixel x y n py px := by
  have hvx : t.v x = s.v x := h.regs x (decide_eq_false hx)
  have hvy : t.v y = s.v y := h.regs y (decide_eq_false hy)
  simp only [State.spritePixel, hvx, hvy, h.index rfl, h.bytes _ rfl]

/-- Settles O47: the second draw turns over the same pixels, and on a clear screen it meets those that the
first one set. -/
theorem drawingTwiceGivesTheScreenBack : Obligations.DrawingTwiceGivesTheScreenBack := by
  unfold Obligations.DrawingTwiceGivesTheScreenBack
  intro s x y n hx hy hblock
  obtain ⟨t, hfirst, htpixel, -, -, -, -, hframe⟩ := drawXorsTheClippedSprite.2 s x y n hblock
  have htblock : t.blockResolves n.toNat = true :=
    (State.blockResolves_congr (hframe.index rfl) hframe.cfg _).trans hblock
  obtain ⟨u, hsecond, hupixel, -, huflag, -⟩ := drawXorsTheClippedSprite.2 t x y n htblock
  simp only [hframe.spritePixel_eq hx hy] at hupixel huflag
  refine ⟨t, u, hfirst, hsecond, Framebuffer.ext_pixel fun py px => ?_, fun hclear => ?_⟩
  · by_cases hin : py < 32 ∧ px < 64
    · rw [hupixel py px hin.1 hin.2, htpixel py px hin.1 hin.2, Bool.xor_assoc, Bool.xor_self,
        Bool.xor_false]
    · rw [Framebuffer.pixel_outside _ _ _ hin, Framebuffer.pixel_outside _ _ _ hin]
  · rw [huflag]
    refine exists_congr fun py => exists_congr fun px => and_congr_right fun hpy =>
      and_congr_right fun hpx => and_iff_left_of_imp fun hsprite => ?_
    rw [htpixel py px hpy hpx, hclear, Framebuffer.pixel_clear, hsprite]
    rfl

/-! The draw signal (R175, decision D21). -/

/-- An outcome whose next state, if it has one, does not signal a draw. -/
def SignalsNoDraw (o : StepOutcome) : Prop := ∀ t, o = .next t → t.signals.draw = false

theorem signalsNoDraw_next {t : State} (h : t.signals.draw = false) : SignalsNoDraw (.next t) := by
  rintro _ ⟨rfl⟩
  exact h

theorem raise_signalsNoDraw (s : State) (c : Cause) (w : Option Word) (addr : Option Nat) :
    SignalsNoDraw (raise s c w addr) :=
  signalsNoDraw_next rfl

theorem unknownWord_signalsNoDraw (w : Word) (s : State) : SignalsNoDraw (unknownWord w s) := by
  unfold unknownWord
  cases s.cfg.unknownPolicy with
  | fatal => exact raise_signalsNoDraw _ _ _ _
  | noOp => exact signalsNoDraw_next rfl

theorem awaitKeyStep_signalsNoDraw (x : RegIdx) (s : State) : SignalsNoDraw (awaitKeyStep x s) := by
  unfold awaitKeyStep
  cases s.pickPressedKey <;> exact signalsNoDraw_next rfl

theorem execRet_signalsNoDraw (s : State) : SignalsNoDraw (execRet s) := by
  unfold execRet
  cases h : s.advance.pop with
  | none => exact raise_signalsNoDraw _ _ _ _
  | some popped =>
    obtain ⟨k, -, -, hpopped⟩ := State.pop_eq_some h
    exact signalsNoDraw_next (by rw [State.setPc_signals, hpopped]; rfl)

theorem execCall_signalsNoDraw (nnn : Addr12) (s : State) : SignalsNoDraw (execCall nnn s) := by
  unfold execCall
  cases h : s.advance.push s.advance.pc with
  | none => exact raise_signalsNoDraw _ _ _ _
  | some pushed =>
    obtain ⟨-, rfl⟩ := State.push_eq_some h
    exact signalsNoDraw_next rfl

theorem execAddI_signalsNoDraw (x : RegIdx) (s : State) : SignalsNoDraw (execAddI x s) := by
  unfold execAddI
  cases s.cfg.fx1eSetsVf <;> exact signalsNoDraw_next rfl

/-- A block stored from I after the fetch advance. -/
theorem advance_writeBytes_signalsNoDraw {s t : State} {bs : List Byte}
    (h : s.advance.writeBytes s.index.toNat bs = .ok t) : SignalsNoDraw (.next t) :=
  signalsNoDraw_next (by rw [(State.advance_writeBytes_completes h).signals]; rfl)

theorem execLdB_signalsNoDraw (x : RegIdx) (s : State) : SignalsNoDraw (execLdB x s) := by
  unfold execLdB
  cases h : s.advance.writeBytes s.index.toNat (decimalDigits (s.v x)) with
  | error addr => exact raise_signalsNoDraw _ _ _ _
  | ok t => exact advance_writeBytes_signalsNoDraw h

theorem execStoreRegs_signalsNoDraw (x : RegIdx) (s : State) : SignalsNoDraw (execStoreRegs x s) := by
  unfold execStoreRegs
  cases h : s.advance.writeBytes s.index.toNat (s.regBlock x) with
  | error addr => exact raise_signalsNoDraw _ _ _ _
  | ok t => exact advance_writeBytes_signalsNoDraw h

theorem execLoadRegs_signalsNoDraw (x : RegIdx) (s : State) : SignalsNoDraw (execLoadRegs x s) := by
  unfold execLoadRegs
  cases s.readBytes s.index.toNat (x.toNat + 1) with
  | error addr => exact raise_signalsNoDraw _ _ _ _
  | ok bytes => exact signalsNoDraw_next (by rw [State.setRegBlock_rest]; rfl)

theorem execLdVxK_signalsNoDraw (x : RegIdx) (s : State) : SignalsNoDraw (execLdVxK x s) := by
  unfold execLdVxK
  cases s.pickPressedKey <;> exact signalsNoDraw_next rfl

/-- Instruction i is one of the two that signal a draw: 00E0 and DXYN only (R175). -/
def ClearsOrDraws (i : Instr) : Prop := i = .cls ∨ ∃ x y n, i = .drw x y n

/-- The instructions of the last case are one `.next` of updates that leave the cleared signals by
definition. -/
theorem exec_signalsNoDraw {i : Instr} (h : ¬ ClearsOrDraws i) (s : State) : SignalsNoDraw (exec i s) := by
  cases i with
  | cls => exact absurd (.inl rfl) h
  | drw x y n => exact absurd (.inr ⟨x, y, n, rfl⟩) h
  | ret => exact execRet_signalsNoDraw s
  | call nnn => exact execCall_signalsNoDraw nnn s
  | seImm | sneImm | seReg | sneReg | skp | sknp =>
    exact signalsNoDraw_next (by rw [State.skipIf_signals]; rfl)
  | addI x => exact execAddI_signalsNoDraw x s
  | ldB x => exact execLdB_signalsNoDraw x s
  | storeRegs x => exact execStoreRegs_signalsNoDraw x s
  | loadRegs x => exact execLoadRegs_signalsNoDraw x s
  | ldVxK x => exact execLdVxK_signalsNoDraw x s
  | _ => exact signalsNoDraw_next rfl

theorem State.safe_of_running {s : State} (h : s.run = .running) : s.safe = true := by
  simp [State.safe, h]

/-- CLS always draws; DXYN draws exactly if it does not fault. -/
theorem draw_iff_safe_of_exec {i : Instr} {s t : State} (hi : ClearsOrDraws i) (hrun : s.run = .running)
    (h : exec i s = .next t) : t.signals.draw = true ↔ t.safe = true := by
  obtain rfl | ⟨x, y, n, rfl⟩ := hi
  · cases h
    exact iff_of_true rfl (State.safe_of_running hrun)
  · cases hblock : s.blockResolves n.toNat with
    | false =>
      rw [exec_drw_of_not_blockResolves hblock] at h
      cases h
      exact iff_of_false Bool.false_ne_true Bool.false_ne_true
    | true =>
      rw [exec_drw_of_blockResolves hblock] at h
      cases h
      exact iff_of_true rfl (State.safe_of_running hrun)

/-- Settles O17, by the way the step goes: only an executed 00E0 or DXYN can signal a draw. -/
theorem drawIsSignalledExactlyByClearAndDraw : Obligations.DrawIsSignalledExactlyByClearAndDraw := by
  unfold Obligations.DrawIsSignalledExactlyByClearAndDraw
  intro s t hsafe hstep
  obtain ⟨r, hrun, -⟩ | ⟨x, hrun, h⟩ |
    ⟨hrun, ⟨addr, hfetch, h⟩ | ⟨w, hfetch, ⟨i, hdecode, h⟩ | ⟨e, hdecode, h⟩⟩⟩ := step_cases s
  · simp [State.safe, hrun] at hsafe
  all_goals rw [hstep] at h
  · simp [awaitKeyStep_signalsNoDraw x s t h.symm, hrun]
  · simp [raise_signalsNoDraw _ _ _ _ t h.symm, hfetch]
  · have hword : (∃ w, s.fetch = .ok w ∧ (decode w = .ok .cls ∨ ∃ x y n, decode w = .ok (.drw x y n))) ↔
        ClearsOrDraws i := by
      simp [hfetch, hdecode, ClearsOrDraws]
    rw [hword]
    by_cases hi : ClearsOrDraws i
    · simp only [draw_iff_safe_of_exec hi hrun h.symm, hrun, hi, and_true]
    · simp [exec_signalsNoDraw hi s t h.symm, hi]
  · simp [unknownWord_signalsNoDraw w s t h.symm, hfetch, hdecode]

end Sys2Proof.Machine

/-! ## Keys and timers (44_keys_timers.md R190 to R196) -/

namespace Sys2Proof.Machine

/-! The skips on a key (R190 to R192). -/

/-- The low nibble is the remainder modulo 16 (R192, decision D16). -/
theorem keyIndex_eq {b : Byte} {k : KeyIdx} (h : k.toNat = b.toNat % 16) : keyIndex b = k := by
  apply BitVec.eq_of_toNat_eq
  simp [keyIndex, h]

theorem exec_skp_of_key {s : State} {x : RegIdx} {k : KeyIdx} (h : k.toNat = (s.v x).toNat % 16) :
    exec (.skp x) s = .next (s.advance.skipIf (decide (s.key k = true))) := by
  rw [exec, execSkp, keyIndex_eq h, Bool.decide_eq_true]

theorem exec_sknp_of_key {s : State} {x : RegIdx} {k : KeyIdx} (h : k.toNat = (s.v x).toNat % 16) :
    exec (.sknp x) s = .next (s.advance.skipIf (decide (¬ s.key k = true))) := by
  rw [exec, execSknp, keyIndex_eq h, decide_not, Bool.decide_eq_true]

/-- Settles O48, by the rule of a skip. -/
theorem keySkipsTestTheLowNibblesKey : Obligations.KeySkipsTestTheLowNibblesKey := by
  unfold Obligations.KeySkipsTestTheLowNibblesKey
  exact ⟨fun w h => decode_eq_ok_iff.2 (wordXNN_of_match h),
    fun w h => decode_eq_ok_iff.2 (wordXNN_of_match h),
    fun s x k hk => ⟨exec_skip_spec (exec_skp_of_key hk), exec_skip_not_spec (exec_sknp_of_key hk)⟩⟩

/-! The access to the timers (R193 to R195). -/

theorem Completes.setDt {w : Writes} {s t : State} (h : Completes w s t) (hw : w.dt = true) {b : Byte} :
    Completes w s (t.setDt b) := { h with frame := h.frame.setDt hw b }

theorem Completes.setSt {w : Writes} {s t : State} (h : Completes w s t) (hw : w.st = true) {b : Byte} :
    Completes w s (t.setSt b) := { h with frame := h.frame.setSt hw b }

theorem State.soundActive_iff (s : State) : s.soundActive = true ↔ s.st ≠ 0 := decide_eq_true_iff

/-- Settles O49: each access is one write after the advance. -/
theorem timerAccessMovesTheTimer : Obligations.TimerAccessMovesTheTimer := by
  unfold Obligations.TimerAccessMovesTheTimer
  refine ⟨fun w h => decode_eq_ok_iff.2 (wordXNN_of_match h),
    fun w h => decode_eq_ok_iff.2 (wordXNN_of_match h),
    fun w h => decode_eq_ok_iff.2 (wordXNN_of_match h), fun s x => ⟨exec_setV_spec rfl, ?_, ?_⟩⟩
  · exact ⟨_, rfl, rfl, Completes.advance.setDt rfl⟩
  · exact ⟨_, rfl, rfl, State.soundActive_iff _, Completes.advance.setSt rfl⟩

/-! FX0A and the wait for a key (R196, decision D15). -/

theorem State.pickPressedKey_cases (s : State) :
    (∃ k, s.pickPressedKey = some k ∧ s.key k = true) ∨
    (s.pickPressedKey = none ∧ ∀ k, s.key k = false) := by
  have hspec := s.pickPressedKey_spec
  cases hpick : s.pickPressedKey with
  | none => exact .inr ⟨rfl, by rwa [hpick] at hspec⟩
  | some k => exact .inl ⟨k, rfl, by rwa [hpick] at hspec⟩

theorem State.exists_pickPressedKey {s : State} (h : ∃ k, s.key k = true) :
    ∃ k, s.pickPressedKey = some k ∧ s.key k = true := by
  obtain hpick | ⟨-, hnone⟩ := s.pickPressedKey_cases
  · exact hpick
  · simp [hnone] at h

theorem State.pickPressedKey_eq_none {s : State} (h : ∀ k, s.key k = false) :
    s.pickPressedKey = none := by
  obtain ⟨k, -, hk⟩ | ⟨hpick, -⟩ := s.pickPressedKey_cases
  · simp [h] at hk
  · exact hpick

/-- The wait ends with key k: what FX0A leaves when it completes, in the step that executes it or in a
later one. -/
def State.endWait (s : State) (x : RegIdx) (k : KeyIdx) : State :=
  (s.advance.countDraw.setV x (keyCode k)).setRun .running

theorem State.endWait_v (s : State) (x : RegIdx) (k : KeyIdx) :
    ((s.endWait x k).v x).toNat = k.toNat := by
  rw [State.endWait, State.v_setRun, State.v_setV_self, keyCode_toNat]

theorem State.endWait_completes (s : State) (x : RegIdx) (k : KeyIdx) :
    Completes { reg := fun j => j = x, run := true, draws := true } s (s.endWait x k) where
  pc := rfl
  signals := rfl
  frame := (completeKeyWait_executes x s).frame

/-- From a running core the run state does not change either. -/
theorem State.endWait_completes_of_running {s : State} (hrun : s.run = .running) (x : RegIdx)
    (k : KeyIdx) : Completes { reg := fun j => j = x, draws := true } s (s.endWait x k) :=
  have h := s.endWait_completes x k
  { h with frame := { h.frame with run := fun _ => hrun.symm } }

theorem exec_ldVxK_of_pick {s : State} {k : KeyIdx} (h : s.pickPressedKey = some k) (x : RegIdx) :
    exec (.ldVxK x) s = .next (s.endWait x k) := by
  simp only [exec, execLdVxK, h, completeKeyWait, State.endWait]

theorem exec_ldVxK_of_no_pick {s : State} (h : s.pickPressedKey = none) (x : RegIdx) :
    exec (.ldVxK x) s = .next (s.enterWait x) := by
  simp only [exec, execLdVxK, h, State.enterWait]

/-- Settles O50, by the pick: FX0A completes with the picked key, or suspends. -/
theorem waitForKeyCompletesOrSuspends : Obligations.WaitForKeyCompletesOrSuspends := by
  unfold Obligations.WaitForKeyCompletesOrSuspends
  refine ⟨fun w h => decode_eq_ok_iff.2 (wordXNN_of_match h),
    fun s x hrun => ⟨fun hpressed => ?_, fun hnone => ?_⟩⟩
  · obtain ⟨k, hpick, hk⟩ := State.exists_pickPressedKey hpressed
    exact ⟨_, k, exec_ldVxK_of_pick hpick x, hk, s.endWait_v x k, rfl,
      State.endWait_completes_of_running hrun x k⟩
  · exact ⟨_, exec_ldVxK_of_no_pick (State.pickPressedKey_eq_none hnone) x, rfl, rfl, rfl,
      ((Frame.refl _ s).setRun rfl _).setSignals _⟩

theorem step_of_awaitKey {s : State} {x : RegIdx} (hrun : s.run = .awaitKey x) :
    step s = awaitKeyStep x s := by
  simp only [step, hrun]

theorem step_of_awaitKey_of_pick {s : State} {x : RegIdx} {k : KeyIdx} (hrun : s.run = .awaitKey x)
    (h : s.pickPressedKey = some k) : step s = .next (s.endWait x k) := by
  simp only [step_of_awaitKey hrun, awaitKeyStep, h, completeKeyWait, State.endWait]

theorem step_of_awaitKey_of_no_pick {s : State} {x : RegIdx} (hrun : s.run = .awaitKey x)
    (h : s.pickPressedKey = none) : step s = .next (s.setSignals awaitingSignals) := by
  simp only [step_of_awaitKey hrun, awaitKeyStep, h]

/-- Settles O51, by the pick: the wait ends with the picked key, or only the signals are written. -/
theorem anAwaitingStepCompletesOrGoesOnWaiting :
    Obligations.AnAwaitingStepCompletesOrGoesOnWaiting := by
  unfold Obligations.AnAwaitingStepCompletesOrGoesOnWaiting
  refine fun s x hrun => ⟨fun hpressed => ?_, fun hnone => ?_⟩
  · obtain ⟨k, hpick, hk⟩ := State.exists_pickPressedKey hpressed
    exact ⟨_, k, step_of_awaitKey_of_pick hrun hpick, hk, s.endWait_v x k, rfl,
      s.endWait_completes x k⟩
  · exact ⟨_, step_of_awaitKey_of_no_pick hrun (State.pickPressedKey_eq_none hnone), rfl, rfl,
      (Frame.refl _ s).setSignals _⟩

end Sys2Proof.Machine

/-! ## Faults: who raises them, what they leave and how they end (60_exceptions.md R210 to R217) -/

namespace Sys2Proof.Machine

/-- Settles O11, by what a step leaves. -/
theorem everyStepAnswersANextState : Obligations.EveryStepAnswersANextState := by
  unfold Obligations.EveryStepAnswersANextState
  intro s
  obtain ⟨t, ht, -⟩ := step_leaves s
  exact ⟨t, ht⟩

/-! The condition of an error and the error go together (R210, R211). -/

/-- An instruction raises an error only on the condition R210 gives for it. -/
theorem Raises.causeOf_eq {s : State} {i : Instr} {c : Cause} {addr : Option Nat} (h : Raises s i c addr)
    (hsp : s.sp ≤ s.cfg.stackDepth) : causeOf s i = some c := by
  cases h with
  | overflow nnn hfull => exact if_pos (Nat.le_antisymm hsp hfull)
  | underflow hempty => exact if_pos hempty
  | access hcause => exact hcause

/-- An instruction whose condition is that its block of n bytes does not resolve. -/
theorem exec_of_block_cause {s : State} {i : Instr} {n : Nat} {c : Cause} {addr : Option Nat}
    (hraise : s.blockResolves n = false → exec i s = raise s .memoryOutOfBounds (some (encode i)) addr)
    (h : (if s.blockResolves n then none else some Cause.memoryOutOfBounds) = some c) :
    ∃ addr, exec i s = raise s c (some (encode i)) addr := by
  obtain ⟨hblock, ⟨⟩⟩ := Option.ite_none_left_eq_some.1 h
  exact ⟨addr, hraise (Bool.eq_false_of_not_eq_true hblock)⟩

/-- On the condition R210 gives for it an instruction raises the error. -/
theorem exec_of_causeOf {s : State} {i : Instr} {c : Cause} (h : causeOf s i = some c) :
    ∃ addr, exec i s = raise s c (some (encode i)) addr := by
  cases i with
  | ret =>
    obtain ⟨hempty, ⟨⟩⟩ := Option.ite_none_right_eq_some.1 h
    exact ⟨_, exec_ret_of_empty hempty⟩
  | call nnn =>
    obtain ⟨hfull, ⟨⟩⟩ := Option.ite_none_right_eq_some.1 h
    exact ⟨_, exec_call_of_full hfull.ge nnn⟩
  | drw x y n => exact exec_of_block_cause exec_drw_of_not_blockResolves h
  | ldB x => exact exec_of_block_cause exec_ldB_of_not_blockResolves h
  | storeRegs x => exact exec_of_block_cause exec_storeRegs_of_not_blockResolves h
  | loadRegs x => exact exec_of_block_cause exec_loadRegs_of_not_blockResolves h
  | _ => cases h

/-! From a state that is not Faulted, only a raise leads to one that is. -/

theorem exec_ldVxK_safe {s t : State} {x : RegIdx} (h : exec (.ldVxK x) s = .next t) : t.safe = true := by
  cases hpick : s.pickPressedKey with
  | none =>
    rw [exec_ldVxK_of_no_pick hpick] at h
    cases h
    rfl
  | some k =>
    rw [exec_ldVxK_of_pick hpick] at h
    cases h
    rfl

/-- FX0A is the only instruction with the run state in its row of `writesOf`. -/
theorem writesOf_run (s : State) (i : Instr) : (writesOf s i).run = false ∨ ∃ x, i = .ldVxK x := by
  cases i with
  | ldVxK x => exact .inr ⟨x, rfl⟩
  | _ => exact .inl rfl

theorem Frame.safe_eq {w : Writes} {s t : State} (h : Frame w s t) (hw : w.run = false) :
    t.safe = s.safe := by
  simp only [State.safe, h.run hw]

theorem exec_safe_or_raises {i : Instr} {s t : State} (hs : s.safe = true) (h : exec i s = .next t) :
    t.safe = true ∨
      ∃ c addr, Raises s i c addr ∧ t = s.enterFault ⟨c, s.pc, some (encode i), addr⟩ := by
  cases ExecLeaves.of_exec h with
  | raises hraises => exact .inr ⟨_, _, hraises, rfl⟩
  | suspends x => exact .inl rfl
  | executes hexecutes =>
    obtain hrun | ⟨x, rfl⟩ := writesOf_run s i
    · exact .inl ((hexecutes.frame.safe_eq hrun).trans hs)
    · exact .inl (exec_ldVxK_safe h)

/-- Settles O12: an instruction on its error's condition raises that error, and any other stays out of
Faulted, since a raise would give it the condition. -/
theorem anInstructionRaisesExactlyItsOwnError : Obligations.AnInstructionRaisesExactlyItsOwnError := by
  unfold Obligations.AnInstructionRaisesExactlyItsOwnError
  intro i s hs hsp
  cases hcause : causeOf s i with
  | some c =>
    obtain ⟨addr, hexec⟩ := exec_of_causeOf hcause
    exact ⟨_, hexec.trans (raise_eq _ _ _ _), _, rfl, rfl⟩
  | none =>
    obtain ⟨t, hexec, -⟩ := exec_leaves i s
    refine ⟨t, hexec, (exec_safe_or_raises hs hexec).resolve_right ?_⟩
    rintro ⟨c, addr, hraises, -⟩
    rw [hraises.causeOf_eq hsp] at hcause
    cases hcause

/-! What a fault leaves (R213, decision D12). -/

theorem State.enterFault_faultsWith (s : State) (r : FaultRecord) : FaultsWith r s (s.enterFault r) where
  run := rfl
  pc := rfl
  signals := rfl
  frame := ((Frame.refl _ s).setRun rfl _).setSignals _

/-- Settles O13: the instruction raised its error, and a raise names its address and word. -/
theorem aFaultingInstructionDiscardsEveryWrite : Obligations.AFaultingInstructionDiscardsEveryWrite := by
  unfold Obligations.AFaultingInstructionDiscardsEveryWrite
  intro i s t hs hexec ht
  obtain hsafe | ⟨c, addr, -, rfl⟩ := exec_safe_or_raises hs hexec
  · rw [hsafe] at ht
    cases ht
  · exact ⟨_, s.enterFault_faultsWith _, rfl, rfl⟩

/-- Settles O14: of the ways a step can go only an error leads to Faulted, and its record is true. -/
theorem aFaultingStepIsPrecise : Obligations.AFaultingStepIsPrecise := by
  unfold Obligations.AFaultingStepIsPrecise
  intro s t hs hsp hstep ht
  cases StepLeaves.of_step hstep with
  | stays =>
    rw [hs] at ht
    cases ht
  | faults htrue => exact ⟨_, s.enterFault_faultsWith _, htrue hsp⟩
  | waits => cases ht
  | runs _ hrun =>
    rw [State.safe_of_running hrun] at ht
    cases ht

/-! The Faulted state is sticky (R214, R215). -/

theorem step_of_faulted {s : State} {r : FaultRecord} (hrun : s.run = .faulted r) : step s = .next s := by
  simp only [step, hrun]

theorem State.stepResult_of_faulted {s : State} {r : FaultRecord} (hrun : s.run = .faulted r) :
    s.stepResult = .fatal r := by
  simp only [State.stepResult, hrun]

/-- Settles O10, by the Faulted branch of the step and of its result. -/
theorem aStepOfAFaultedCoreChangesNothing : Obligations.AStepOfAFaultedCoreChangesNothing := by
  unfold Obligations.AStepOfAFaultedCoreChangesNothing
  exact fun s r hrun => ⟨step_of_faulted hrun, State.stepResult_of_faulted hrun⟩

/-- Settles O22: a step changes nothing, and the other transactions leave the run state alone. -/
theorem onlyConstructLeavesFaulted : Obligations.OnlyConstructLeavesFaulted := by
  unfold Obligations.OnlyConstructLeavesFaulted
  intro tr s t resp r hrun hne h
  obtain ⟨cfg, rom, htr, -⟩ | ⟨-, hstep, -⟩ | ⟨-, rfl, -⟩ | ⟨k, b, -, rfl, -⟩ | rfl := transact_cases h
  · exact absurd htr (hne cfg rom)
  · rw [step_of_faulted hrun] at hstep
    cases hstep
    exact hrun
  · exact hrun
  · exact hrun
  · exact hrun

end Sys2Proof.Machine

/-! ## The timer tick (60_exceptions.md R219 to R221, decision D24) -/

namespace Sys2Proof.Machine

theorem State.tick_dt_toNat (s : State) : s.tick.dt.toNat = s.dt.toNat - 1 := countDown_toNat s.dt

theorem State.tick_st_toNat (s : State) : s.tick.st.toNat = s.st.toNat - 1 := countDown_toNat s.st

theorem State.tick_frame (s : State) : Frame { dt := true, st := true } s s.tick :=
  ((Frame.refl _ s).setDt rfl _).setSt rfl _

theorem State.soundActive_iff_pos (s : State) : s.soundActive = true ↔ 0 < s.st.toNat := by
  rw [State.soundActive_iff, Nat.pos_iff_ne_zero, ne_eq, ne_eq, BitVec.toNat_eq]
  rfl

/-- Settles O53: the sound is on while ST is above 0, and a tick leaves ST there if it was above 1. -/
theorem aTickCountsTheTimersDown : Obligations.ATickCountsTheTimersDown := by
  unfold Obligations.ATickCountsTheTimersDown
  intro s
  have hsound : s.tick.soundActive = true ↔ 1 < s.st.toNat := by
    rw [State.soundActive_iff_pos, s.tick_st_toNat, Nat.sub_pos_iff_lt]
  exact ⟨s.tick, rfl, s.tick_dt_toNat, s.tick_st_toNat, hsound, rfl, rfl, s.tick_frame⟩

/-! A tick commutes with what does not touch a timer. -/

/-- The outcome with the timers of its next state counted down once. -/
def tickOutcome : StepOutcome → StepOutcome
  | .next t => .next t.tick
  | .fault f => .fault f
  | .refused r => .refused r

/-- From `s` it makes no difference to `f` whether the tick comes before or after it. -/
def CommutesWithTick (f : State → StepOutcome) (s : State) : Prop := f s.tick = tickOutcome (f s)

/-- It is enough to give both outcomes. -/
theorem CommutesWithTick.of_eq {f : State → StepOutcome} {s : State} {o o' : StepOutcome}
    (h : f s = o) (htick : f s.tick = o') (heq : o' = tickOutcome o) : CommutesWithTick f s := by
  rw [CommutesWithTick, h, htick, heq]

theorem State.fetch_tick (s : State) : s.tick.fetch = s.fetch := State.fetch_congr rfl rfl rfl

theorem State.pickPressedKey_tick (s : State) : s.tick.pickPressedKey = s.pickPressedKey :=
  State.pickPressedKey_congr rfl rfl

theorem State.v_tick (s : State) : s.tick.v = s.v := rfl

theorem State.regBlock_tick (s : State) (x : RegIdx) : s.tick.regBlock x = s.regBlock x := rfl

theorem State.skipIf_tick (s : State) (c : Bool) : s.tick.skipIf c = (s.skipIf c).tick := by
  cases c <;> rfl

theorem exec_ret_commutesWithTick (s : State) : CommutesWithTick (exec .ret) s := by
  obtain hempty | hpos := Nat.eq_zero_or_pos s.sp
  · exact .of_eq (exec_ret_of_empty hempty) (exec_ret_of_empty (s := s.tick) hempty) rfl
  · exact .of_eq (exec_ret_of_sp_pos hpos) (exec_ret_of_sp_pos (s := s.tick) hpos) rfl

theorem exec_call_commutesWithTick (nnn : Addr12) (s : State) : CommutesWithTick (exec (.call nnn)) s := by
  obtain hroom | hfull := Nat.lt_or_ge s.sp s.cfg.stackDepth
  · exact .of_eq (exec_call_of_sp_lt hroom nnn) (exec_call_of_sp_lt (s := s.tick) hroom nnn) rfl
  · exact .of_eq (exec_call_of_full hfull nnn) (exec_call_of_full (s := s.tick) hfull nnn) rfl

theorem exec_addI_commutesWithTick (x : RegIdx) (s : State) : CommutesWithTick (exec (.addI x)) s := by
  cases hquirk : s.cfg.fx1eSetsVf with
  | false =>
    exact .of_eq (exec_addI_of_quirk_off hquirk x) (exec_addI_of_quirk_off (s := s.tick) hquirk x) rfl
  | true =>
    exact .of_eq (exec_addI_of_quirk_on hquirk x) (exec_addI_of_quirk_on (s := s.tick) hquirk x) rfl

/-- A block read from I does not meet the timers. -/
theorem State.readBytes_tick (s : State) (n : Nat) :
    s.tick.readBytes s.tick.index.toNat n = s.readBytes s.index.toNat n :=
  State.readBytes_congr (s := s) (t := s.tick) rfl rfl _ n

theorem exec_drw_commutesWithTick (x y : RegIdx) (n : BitVec 4) (s : State) :
    CommutesWithTick (exec (.drw x y n)) s := by
  simp only [CommutesWithTick, exec, execDrw, s.readBytes_tick]
  cases s.readBytes s.index.toNat n.toNat <;> rfl

theorem exec_loadRegs_commutesWithTick (x : RegIdx) (s : State) :
    CommutesWithTick (exec (.loadRegs x)) s := by
  simp only [CommutesWithTick, exec, execLoadRegs, s.readBytes_tick]
  cases s.readBytes s.index.toNat (x.toNat + 1) with
  | error addr => rfl
  | ok bytes => exact congrArg Host.Outcome.next (State.setRegBlock_tick bytes s.advance 0)

/-- A block stored from I after the fetch advance does not meet the timers. -/
theorem State.advance_writeBytes_tick (s : State) (bs : List Byte) :
    s.tick.advance.writeBytes s.tick.index.toNat bs =
      (s.advance.writeBytes s.index.toNat bs).map State.tick :=
  State.writeBytes_tick bs s.advance s.index.toNat

theorem exec_ldB_commutesWithTick (x : RegIdx) (s : State) : CommutesWithTick (exec (.ldB x)) s := by
  simp only [CommutesWithTick, exec, execLdB, s.v_tick, s.advance_writeBytes_tick]
  cases s.advance.writeBytes s.index.toNat (decimalDigits (s.v x)) <;> rfl

theorem exec_storeRegs_commutesWithTick (x : RegIdx) (s : State) :
    CommutesWithTick (exec (.storeRegs x)) s := by
  simp only [CommutesWithTick, exec, execStoreRegs, s.regBlock_tick, s.advance_writeBytes_tick]
  cases s.advance.writeBytes s.index.toNat (s.regBlock x) <;> rfl

theorem exec_ldVxK_commutesWithTick (x : RegIdx) (s : State) : CommutesWithTick (exec (.ldVxK x)) s := by
  have htick := s.pickPressedKey_tick
  cases hpick : s.pickPressedKey with
  | none =>
    exact .of_eq (exec_ldVxK_of_no_pick hpick x) (exec_ldVxK_of_no_pick (htick.trans hpick) x) rfl
  | some k => exact .of_eq (exec_ldVxK_of_pick hpick x) (exec_ldVxK_of_pick (htick.trans hpick) x) rfl

/-- The instructions of the last case are one `.next` of updates, none of which reads or writes a timer. -/
theorem exec_commutesWithTick {i : Instr} (h : ¬ accessesTimers i) (s : State) :
    CommutesWithTick (exec i) s := by
  cases i with
  | ldVxDt x => exact absurd ⟨x, .inl rfl⟩ h
  | ldDtVx x => exact absurd ⟨x, .inr (.inl rfl)⟩ h
  | ldStVx x => exact absurd ⟨x, .inr (.inr rfl)⟩ h
  | ret => exact exec_ret_commutesWithTick s
  | call nnn => exact exec_call_commutesWithTick nnn s
  | seImm | sneImm | seReg | sneReg | skp | sknp =>
    exact congrArg Host.Outcome.next (State.skipIf_tick s.advance _)
  | drw x y n => exact exec_drw_commutesWithTick x y n s
  | ldVxK x => exact exec_ldVxK_commutesWithTick x s
  | addI x => exact exec_addI_commutesWithTick x s
  | ldB x => exact exec_ldB_commutesWithTick x s
  | storeRegs x => exact exec_storeRegs_commutesWithTick x s
  | loadRegs x => exact exec_loadRegs_commutesWithTick x s
  | _ => rfl

theorem unknownWord_commutesWithTick (w : Word) (s : State) : CommutesWithTick (unknownWord w) s := by
  cases hpolicy : s.cfg.unknownPolicy with
  | fatal =>
    exact .of_eq (unknownWord_of_fatal w hpolicy) (unknownWord_of_fatal (s := s.tick) w hpolicy) rfl
  | noOp =>
    exact .of_eq (unknownWord_of_noOp w hpolicy) (unknownWord_of_noOp (s := s.tick) w hpolicy) rfl

theorem step_commutesWithTick_of_awaitKey {s : State} {x : RegIdx} (hrun : s.run = .awaitKey x) :
    CommutesWithTick step s := by
  have htick := s.pickPressedKey_tick
  cases hpick : s.pickPressedKey with
  | none =>
    exact .of_eq (step_of_awaitKey_of_no_pick hrun hpick)
      (step_of_awaitKey_of_no_pick (s := s.tick) hrun (htick.trans hpick)) rfl
  | some k =>
    exact .of_eq (step_of_awaitKey_of_pick hrun hpick)
      (step_of_awaitKey_of_pick (s := s.tick) hrun (htick.trans hpick)) rfl

/-- The step goes the same way with and without a tick before it. -/
theorem step_commutesWithTick {s : State}
    (h : s.run = .running → ∀ w i, s.fetch = .ok w → decode w = .ok i → ¬ accessesTimers i) :
    CommutesWithTick step s := by
  have htick := s.fetch_tick
  obtain ⟨r, hrun, hstep⟩ | ⟨x, hrun, -⟩ |
    ⟨hrun, ⟨addr, hfetch, hstep⟩ | ⟨w, hfetch, ⟨i, hdecode, hstep⟩ | ⟨e, hdecode, hstep⟩⟩⟩ := step_cases s
  · exact .of_eq hstep (step_of_faulted (s := s.tick) hrun) rfl
  · exact step_commutesWithTick_of_awaitKey hrun
  · exact .of_eq hstep (step_of_fetch_error (s := s.tick) hrun (htick.trans hfetch)) rfl
  · exact .of_eq hstep (step_of_decode_ok (s := s.tick) hrun (htick.trans hfetch) hdecode)
      (exec_commutesWithTick (h hrun w i hfetch hdecode) s)
  · exact .of_eq hstep (step_of_decode_error (s := s.tick) hrun (htick.trans hfetch) hdecode)
      (unknownWord_commutesWithTick w s)

/-- Settles O54, by the way the step goes. -/
theorem ticksCommuteWithStepsThatLeaveTheTimers :
    Obligations.TicksCommuteWithStepsThatLeaveTheTimers := by
  unfold Obligations.TicksCommuteWithStepsThatLeaveTheTimers
  intro s t h hstep
  have hcommute := step_commutesWithTick h
  rwa [CommutesWithTick, hstep] at hcommute

end Sys2Proof.Machine

/-! ## The loader (70_reset_and_hazards.md R242, R243) -/

namespace Sys2Proof.Machine

/-- A ROM that fits leaves the initial state but for its memory. -/
theorem State.construct_eq_setMem (cfg : Config) {rom : List Byte} (h : rom.length ≤ 3584) :
    State.construct cfg rom = (State.initial cfg).setMem (State.construct cfg rom).mem :=
  State.writeBytes_mem rom (State.construct_fits cfg rom h)

theorem State.construct_byteAt_rom (cfg : Config) {rom : List Byte} (h : rom.length ≤ 3584) {k : Nat}
    (hk : k < rom.length) : (State.construct cfg rom).byteAt (0x200 + k) = rom[k] := by
  have hresolve : (State.initial cfg).resolve (0x200 + k) = .ok (0x200 + k) := if_pos (by omega)
  rw [State.byteAt_writeBytes rom (State.construct_fits cfg rom h) (Memory.nil_wf cfg.font) (by omega)
    k hk _ hresolve, List.getD_eq_getElem rom 0 hk]

theorem State.construct_byteAt_outside_rom (cfg : Config) {rom : List Byte} (h : rom.length ≤ 3584)
    {a : Nat} (ha : a < 0x200 ∨ 0x200 + rom.length ≤ a) :
    (State.construct cfg rom).byteAt a = (State.initial cfg).byteAt a := by
  apply State.byteAt_writeBytes_other rom (State.construct_fits cfg rom h)
  intro k hk hresolve
  have hmod := State.resolve_eq_mod hresolve
  omega

/-- Settles O58: the loader is one block write to the initial state's memory. -/
theorem theLoaderPlacesEachRomByte : Obligations.TheLoaderPlacesEachRomByte := by
  unfold Obligations.TheLoaderPlacesEachRomByte
  intro cfg rom h
  have hmem := State.construct_eq_setMem cfg h
  refine ⟨?_, fun k hk => State.construct_byteAt_rom cfg h hk,
    fun a ha => State.construct_byteAt_outside_rom cfg h ha, ?_⟩
  all_goals
    rw [hmem]
    rfl

theorem State.constructResponse_of_faulted {s : State} {r : FaultRecord} (h : s.run = .faulted r) :
    s.constructResponse = .romTooLarge := by
  simp only [State.constructResponse, h]

/-- Settles O59: `construct` changes the initial state's run state only, and a step from Faulted stays. -/
theorem anOversizedRomIsRefused : Obligations.AnOversizedRomIsRefused := by
  unfold Obligations.AnOversizedRomIsRefused
  intro cfg rom s h
  have hconstruct := State.construct_oversized cfg rom h
  have hrun : (State.construct cfg rom).run =
      .faulted ⟨.romTooLarge, 0x200, none, some (0x200 + rom.length)⟩ := by
    rw [hconstruct]
    rfl
  refine ⟨{ State.construct cfg rom with draws := s.draws }, _, ?_, hrun, rfl, rfl, fun a => ?_,
    step_of_faulted hrun⟩
  · rw [transact, State.constructResponse_of_faulted hrun]
  · rw [hconstruct]
    rfl

end Sys2Proof.Machine
